-- ==== Sys2Proof/Word.lean ====
section
/-! DEFINITION. The word types of LFPC CORE (spec/00_scope.md R6, R7; spec/42_numerics.md R173). -/

namespace Sys2Proof

/-- An element word, a length or a 32-bit operand field (R6, R71). -/
abbrev Word := BitVec 32

/-- A command word `cmd[71:0]` (R6, R71). -/
abbrev CmdWord := BitVec 72

/-- A response payload, and the pattern of a binary64 result (R76, R173). -/
abbrev Double := BitVec 64

/-- A response word `rsp[67:0]` (R6, R76). -/
abbrev RspWord := BitVec 68

end Sys2Proof
end

