-- ==== Sys2Proof/Syntax.lean ====
section
/-! DEFINITION. The commands of LFPC CORE: one constructor per row of spec/opcode_table.json, in the table's order
(spec/30_encoding.md R72, R73, R83). An illegal word is no command (R81): the decoder refuses it by name. -/

namespace Sys2Proof

/-- A decoded command, its operands assembled as R74 says. -/
inductive Instr where
  /-- `CSTART k`: open a compression job (R101). `k = s32(B)` is a signed integer (R74 a). -/
  | cstart (k : Int)
  /-- `CPUSH w`: compress one element, a bit pattern (R102, R74 c). -/
  | cpush (w : Word)
  /-- `CEND`: close the compression job (R103). -/
  | cend
  /-- `MSTART len_o, len_c`: open a metrics job; the lengths are unsigned (R140, R74 b). -/
  | mstart (lenO lenC : Word)
  /-- `MPUSH o, c`: accumulate one pair of bit patterns (R141, R74 c). -/
  | mpush (o c : Word)
  /-- `MREAD.MSE`, sel = 0 (R152). -/
  | mreadMse
  /-- `MREAD.MEAN_O`, sel = 1 (R153). -/
  | mreadMeanO
  /-- `MREAD.MEAN_C`, sel = 2 (R154). -/
  | mreadMeanC
  /-- `MREAD.VAR_O`, sel = 3 (R155). -/
  | mreadVarO
  /-- `MREAD.VAR_C`, sel = 4 (R156). -/
  | mreadVarC
  /-- `MREAD.STD_O`, sel = 5 (R157). -/
  | mreadStdO
  /-- `MREAD.STD_C`, sel = 6 (R158). -/
  | mreadStdC
  /-- `MEND`: close the metrics job (R142). -/
  | mend
  deriving DecidableEq, Repr

end Sys2Proof
end

