-- ==== Sys2Proof/WellFormed.lean ====
section
/-! DEFINITION. Which commands a command word can carry (spec/30_encoding.md R73, R74). -/

namespace Sys2Proof

/-- `k` is the value of a 32-bit two's-complement operand (R74 a, D5); every other operand fills its field, so any
value of it is well formed. -/
def Instr.wellFormed : Instr → Bool
  | .cstart k => decide (-2 ^ 31 ≤ k ∧ k < 2 ^ 31)
  | .cpush _ => true
  | .cend => true
  | .mstart _ _ => true
  | .mpush _ _ => true
  | .mreadMse => true
  | .mreadMeanO => true
  | .mreadMeanC => true
  | .mreadVarO => true
  | .mreadVarC => true
  | .mreadStdO => true
  | .mreadStdC => true
  | .mend => true

end Sys2Proof
end

