-- ==== Sys2Proof/Decode.lean ====
section
/-! DEFINITION. Decoding and encoding of the 72-bit command word (spec/30_encoding.md R70 to R75, R81, R83). -/

namespace Sys2Proof

/-- The field `OP`, bits 71:64 (R71). -/
def fieldOp (w : CmdWord) : BitVec 8 := w.extractLsb' 64 8

/-- The field `A`, bits 63:32 (R71). -/
def fieldA (w : CmdWord) : Word := w.extractLsb' 32 32

/-- The field `B`, bits 31:0 (R71). -/
def fieldB (w : CmdWord) : Word := w.extractLsb' 0 32

/-- The word of format F72 with these fields: `{OP, A, B}` (R71). -/
def assemble (op : BitVec 8) (a b : Word) : CmdWord := op ++ a ++ b

/-- Why a word is illegal: the four clauses of R75. -/
inductive DecodeError where
  /-- R75 (a): `OP` is none of the seven opcodes. -/
  | unknownOpcode
  /-- R75 (b): a field that R73 marks "0" is not all zeros. -/
  | reservedNotZero
  /-- R75 (c): `OP = 0x22` and `B[31:3]` is not all zeros. -/
  | mreadHighBits
  /-- R75 (d): `OP = 0x22` and `B[2:0] = 7`. -/
  | mreadSelSeven
  deriving DecidableEq, Repr

/-- The MREAD form that `sel` selects (R83); `sel = 7` selects none. -/
def decodeSel (sel : BitVec 3) : Except DecodeError Instr :=
  if sel = 0 then .ok .mreadMse
  else if sel = 1 then .ok .mreadMeanO
  else if sel = 2 then .ok .mreadMeanC
  else if sel = 3 then .ok .mreadVarO
  else if sel = 4 then .ok .mreadVarC
  else if sel = 5 then .ok .mreadStdO
  else if sel = 6 then .ok .mreadStdC
  else .error .mreadSelSeven

/-- `decode` of R81: a total function of the command word alone. -/
def decode (w : CmdWord) : Except DecodeError Instr :=
  if fieldOp w = 0x10 then
    if fieldA w = 0 then .ok (.cstart (fieldB w).toInt) else .error .reservedNotZero
  else if fieldOp w = 0x11 then
    if fieldA w = 0 then .ok (.cpush (fieldB w)) else .error .reservedNotZero
  else if fieldOp w = 0x12 then
    if fieldA w = 0 ∧ fieldB w = 0 then .ok .cend else .error .reservedNotZero
  else if fieldOp w = 0x20 then .ok (.mstart (fieldA w) (fieldB w))
  else if fieldOp w = 0x21 then .ok (.mpush (fieldA w) (fieldB w))
  else if fieldOp w = 0x22 then
    if fieldA w ≠ 0 then .error .reservedNotZero
    else if (fieldB w).extractLsb' 3 29 ≠ 0 then .error .mreadHighBits
    else decodeSel ((fieldB w).extractLsb' 0 3)
  else if fieldOp w = 0x23 then
    if fieldA w = 0 ∧ fieldB w = 0 then .ok .mend else .error .reservedNotZero
  else .error .unknownOpcode

/-- The command word of a command (R71 to R74, R83). A well-formed `k` fits the field `B`. -/
def encode : Instr → CmdWord
  | .cstart k => assemble 0x10 0 (BitVec.ofInt 32 k)
  | .cpush w => assemble 0x11 0 w
  | .cend => assemble 0x12 0 0
  | .mstart lenO lenC => assemble 0x20 lenO lenC
  | .mpush o c => assemble 0x21 o c
  | .mreadMse => assemble 0x22 0 0
  | .mreadMeanO => assemble 0x22 0 1
  | .mreadMeanC => assemble 0x22 0 2
  | .mreadVarO => assemble 0x22 0 3
  | .mreadVarC => assemble 0x22 0 4
  | .mreadStdO => assemble 0x22 0 5
  | .mreadStdC => assemble 0x22 0 6
  | .mend => assemble 0x23 0 0

/-- A row of spec/opcode_table.json: a word is the row's when `word & mask = pattern` (R81). -/
structure OpcodeRow where
  mnemonic : String
  pattern : CmdWord
  mask : CmdWord
  deriving DecidableEq, Repr

/-- The thirteen rows of spec/opcode_table.json, in its order (R81). -/
def opcodeTable : List OpcodeRow :=
  [ ⟨"CSTART", 0x100000000000000000, 0xFFFFFFFFFF00000000⟩,
    ⟨"CPUSH", 0x110000000000000000, 0xFFFFFFFFFF00000000⟩,
    ⟨"CEND", 0x120000000000000000, 0xFFFFFFFFFFFFFFFFFF⟩,
    ⟨"MSTART", 0x200000000000000000, 0xFF0000000000000000⟩,
    ⟨"MPUSH", 0x210000000000000000, 0xFF0000000000000000⟩,
    ⟨"MREAD.MSE", 0x220000000000000000, 0xFFFFFFFFFFFFFFFFFF⟩,
    ⟨"MREAD.MEAN_O", 0x220000000000000001, 0xFFFFFFFFFFFFFFFFFF⟩,
    ⟨"MREAD.MEAN_C", 0x220000000000000002, 0xFFFFFFFFFFFFFFFFFF⟩,
    ⟨"MREAD.VAR_O", 0x220000000000000003, 0xFFFFFFFFFFFFFFFFFF⟩,
    ⟨"MREAD.VAR_C", 0x220000000000000004, 0xFFFFFFFFFFFFFFFFFF⟩,
    ⟨"MREAD.STD_O", 0x220000000000000005, 0xFFFFFFFFFFFFFFFFFF⟩,
    ⟨"MREAD.STD_C", 0x220000000000000006, 0xFFFFFFFFFFFFFFFFFF⟩,
    ⟨"MEND", 0x230000000000000000, 0xFFFFFFFFFFFFFFFFFF⟩ ]

/-- The row's mnemonic of a command, as spec/opcode_table.json spells it. -/
def Instr.mnemonic : Instr → String
  | .cstart _ => "CSTART"
  | .cpush _ => "CPUSH"
  | .cend => "CEND"
  | .mstart _ _ => "MSTART"
  | .mpush _ _ => "MPUSH"
  | .mreadMse => "MREAD.MSE"
  | .mreadMeanO => "MREAD.MEAN_O"
  | .mreadMeanC => "MREAD.MEAN_C"
  | .mreadVarO => "MREAD.VAR_O"
  | .mreadVarC => "MREAD.VAR_C"
  | .mreadStdO => "MREAD.STD_O"
  | .mreadStdC => "MREAD.STD_C"
  | .mend => "MEND"

/-- The command word whose bits below `nbits` are those of `w` and whose other bits are 0, numbered as
spec/opcode_table.json numbers them. A command is one 72-bit word (R70), so there is no order of words to undo. -/
def wordOfTableBits (nbits w : Nat) : CmdWord := BitVec.ofNat 72 (w % 2 ^ nbits)

/-- What the decoder reads from an instruction whose bits are `w` (assumption log 11); more bits than a command word
has are no command. -/
def decodeTableWord (nbits w : Nat) : Option Instr :=
  if nbits ≤ 72 then (decode (wordOfTableBits nbits w)).toOption else none

end Sys2Proof
end

