-- ==== Sys2Proof/Machine/Operands.lean ====
section
/-! DEFINITION. The fields, classes and exact value of a binary32 operand word (spec/42_numerics.md R170 to R172). A
command's operands are the words and integers the decoder assembled (R74): no operand has an addressing mode. -/

namespace Sys2Proof.Machine

/-- `s`, the sign, bit 31 (R170). -/
def signOf (w : Word) : Bool := w.getLsbD 31

/-- `e`, the biased exponent, bits 30:23 (R170). -/
def expoOf (w : Word) : BitVec 8 := w.extractLsb' 23 8

/-- `f`, the mantissa, bits 22:0 (R170). -/
def mantOf (w : Word) : BitVec 23 := w.extractLsb' 0 23

/-- The word with these fields (R170). -/
def wordOfFields (s : Bool) (e : BitVec 8) (f : BitVec 23) : Word := BitVec.ofBool s ++ e ++ f

/-- `PINF`, the pattern of +infinity (R171). -/
def pinf32 : Word := 0x7F800000

/-- `NINF`, the pattern of -infinity (R171). -/
def ninf32 : Word := 0xFF800000

/-- `finite(w)`: zero, subnormal or normal (R171). -/
abbrev IsFinite (w : Word) : Prop := expoOf w ≠ 255

/-- A NaN: `e = 255` and `f ≠ 0` (R171). -/
abbrev IsNan (w : Word) : Prop := expoOf w = 255 ∧ mantOf w ≠ 0

/-- An infinity of either sign (R171). -/
abbrev IsInf (w : Word) : Prop := w = pinf32 ∨ w = ninf32

/-- A zero of either sign (R171). -/
abbrev IsZero (w : Word) : Prop := expoOf w = 0 ∧ mantOf w = 0

/-- A subnormal (R171). -/
abbrev IsSubnormal (w : Word) : Prop := expoOf w = 0 ∧ mantOf w ≠ 0

/-- A normal word: `1 ≤ e ≤ 254` (R171). -/
abbrev IsNormal (w : Word) : Prop := 1 ≤ (expoOf w).toNat ∧ (expoOf w).toNat ≤ 254

/-- `mag(w)` of a finite word (R172): its magnitude in units of 2^-149. -/
def magOf (w : Word) : Nat :=
  if expoOf w = 0 then (mantOf w).toNat
  else (2 ^ 23 + (mantOf w).toNat) * 2 ^ ((expoOf w).toNat - 1)

/-- `m(w)` of a finite word (R172): its value in units of 2^-149. -/
def intOf (w : Word) : Int := if signOf w then -(magOf w : Int) else (magOf w : Int)

/-- `val(w)` of a finite word, the exact rational (R172). -/
def valOf (w : Word) : ℚ := (intOf w : ℚ) / 2 ^ 149

/-- `E(w)`, the unbiased exponent of a finite word (R172). -/
def unbiasedOf (w : Word) : Int := if expoOf w = 0 then -126 else (expoOf w).toNat - 127

end Sys2Proof.Machine
end

