-- ==== Sys2Proof/Machine/State.lean ====
section
/-! DEFINITION. The state of LFPC CORE (spec/10_state.md R20 to R39), the channel to the host (spec/20_memory.md R50,
R62), and the state after reset (R37). INVENTORY.md lists every field with its rule. -/

namespace Sys2Proof.Machine

/-- The four errors of R77: each is reported in the response of the command that caused it (R200). -/
inductive ErrorCode where
  /-- INVALID_PARAMETER, code 1 (R201): CSTART with `k` outside 0 to 31. -/
  | invalidParameter
  /-- LENGTH_MISMATCH, code 2 (R202): MSTART with unequal lengths. -/
  | lengthMismatch
  /-- PROTOCOL, code 3 (R203): a command in a job state that gives it no meaning. -/
  | protocol
  /-- ILLEGAL_COMMAND, code 4 (R204): an illegal command word. -/
  | illegalCommand
  deriving DecidableEq, Repr

/-- The five statuses of R77; codes 5 to 15 are never produced (U6). -/
inductive Status where
  | ok
  | error (e : ErrorCode)
  deriving DecidableEq, Repr

/-- A response: `STATUS` and `PAYLOAD` (R76). -/
structure Response where
  status : Status
  payload : Double
  deriving DecidableEq, Repr

/-- Unit C's state (R23 to R25): `C_ACTIVE`, `K`, `MASK`. -/
structure UnitC where
  /-- `C_ACTIVE` (R23): a compression job is open. -/
  active : Bool
  /-- `K` (R24): `bits_to_zero` of the open job. -/
  k : BitVec 5
  /-- `MASK` (R25): the BitMask of the open job. -/
  mask : Word
  deriving DecidableEq, Repr

/-- `M_STATE` (R26). -/
inductive MState where
  | idle
  | active
  deriving DecidableEq, Repr

/-- What unit M holds of one buffer X, X being O or C (R31, R32, R35). -/
structure Side where
  /-- `S1_X` (R31), unit 2^-149. -/
  s1 : Int
  /-- `S2_X` (R32), unit 2^-298. -/
  s2 : Nat
  /-- `X_NAN` (R35). -/
  nan : Bool
  /-- `X_PINF` (R35). -/
  pinf : Bool
  /-- `X_NINF` (R35). -/
  ninf : Bool
  deriving DecidableEq, Repr

/-- Unit M's state (R26 to R28, R30 to R32, R35). -/
structure UnitM where
  /-- `M_STATE` (R26). -/
  state : MState
  /-- `M_LEN` (R27). -/
  len : Word
  /-- `M_COUNT` (R28). -/
  count : Word
  /-- `SD` (R30), unit 2^-298. -/
  sd : Nat
  /-- `D_NAN` (R35). -/
  dNan : Bool
  /-- `D_INF` (R35). -/
  dInf : Bool
  /-- `S1_O`, `S2_O`, `O_NAN`, `O_PINF`, `O_NINF`. -/
  o : Side
  /-- `S1_C`, `S2_C`, `C_NAN`, `C_PINF`, `C_NINF`. -/
  c : Side
  deriving DecidableEq, Repr

/-- What the host does to the block (R50, R62, R230). -/
inductive HostEvent where
  /-- It presents the word on `cmd` and takes the one response (R62). -/
  | present (cmd : CmdWord)
  /-- It asserts `rst`, while a command is in flight or not (R230). -/
  | assertReset (inFlight : Option CmdWord)
  deriving DecidableEq, Repr

/-- The machine: the block's state (R20) and, as the model's own fields, what the host is about to do, what it has
taken, and the index of the next free values. -/
structure State where
  /-- Unit C. -/
  c : UnitC
  /-- Unit M. -/
  m : UnitM
  /-- What the host does next, the next event first (assumption log 2). -/
  pending : List HostEvent
  /-- The responses the host has taken, the oldest first (assumption log 3). No command reads it. -/
  responses : List Response
  /-- The index of the free values of the next asserted reset (assumption log 6). No command reads it. -/
  freeIndex : Nat
  deriving DecidableEq, Repr

/-- Why the machine stops with a fault: never. Every error of this machine is a response (R200), and the block never
halts (R234), so the type has no constructor and nothing raises one (safe: nothing is left out). -/
inductive Fault where
  deriving DecidableEq, Repr

/-- Why a meaning is missing. -/
inductive Refusal where
  /-- Raised by an arm of `exec` whose instruction has no meaning yet; no arm raises it (safe). -/
  | notModelled (mnemonic : String)
  deriving DecidableEq, Repr

/-- One side of unit M with every element at the value the model names for reset (R37 gives none; assumption log 5). -/
def Side.reset : Side := { s1 := 0, s2 := 0, nan := false, pinf := false, ninf := false }

/-- The state after reset (R37): `C_ACTIVE = 0`, `M_STATE = IDLE`. The elements R37 leaves unspecified hold the value
assumption log 5 names (DESIGN CHOICE, unsafe), and the host has done nothing yet. -/
def State.reset : State :=
  { c := { active := false, k := 0, mask := 0 }
    m := { state := .idle, len := 0, count := 0, sd := 0, dNan := false, dInf := false,
           o := Side.reset, c := Side.reset }
    pending := []
    responses := []
    freeIndex := 0 }

end Sys2Proof.Machine
end

