-- ==== Sys2Proof/Machine/Flags.lean ====
section
/-! DEFINITION. The eight sticky flags and the five accumulators: what MPUSH does to one side and to the pair
(spec/41_fidelity_metrics.md R141, spec/10_state.md R30 to R32, R35). A flag is set here and never cleared. -/

namespace Sys2Proof.Machine

/-- The condition of `D_NAN`: "`o` or `c` is a NaN, or `o` and `c` are the same infinity" (R35, R141). -/
abbrev PairIsNan (o c : Word) : Prop := IsNan o ∨ IsNan c ∨ (o = c ∧ IsInf o)

/-- The condition of `D_INF`: "`D_NAN`'s condition does not hold and `o` or `c` is an infinity" (R35, R141). -/
abbrev PairIsInf (o c : Word) : Prop := ¬ PairIsNan o c ∧ (IsInf o ∨ IsInf c)

/-- One word enters its side's accumulators or sets one of its side's flags (R141, first part). -/
def Side.push (d : Side) (x : Word) : Side :=
  if IsFinite x then { d with s1 := d.s1 + intOf x, s2 := d.s2 + (intOf x * intOf x).toNat }
  else if IsNan x then { d with nan := true }
  else if x = pinf32 then { d with pinf := true }
  else { d with ninf := true }

/-- The squared difference of a pair enters `SD`, or the pair sets `D_NAN` or `D_INF` (R141, second part). -/
def UnitM.pushDiff (m : UnitM) (o c : Word) : UnitM :=
  if PairIsNan o c then { m with dNan := true }
  else if PairIsInf o c then { m with dInf := true }
  else { m with sd := m.sd + ((intOf o - intOf c) * (intOf o - intOf c)).toNat }

/-- One pair enters the job: both sides, the squared difference, and `M_COUNT` (R141). -/
def UnitM.push (m : UnitM) (o c : Word) : UnitM :=
  { m.pushDiff o c with o := m.o.push o, c := m.c.push c, count := m.count + 1 }

/-- Every flag of a side is clear. -/
abbrev Side.NoFlag (d : Side) : Prop := d.nan = false ∧ d.pinf = false ∧ d.ninf = false

end Sys2Proof.Machine
end

