-- ==== Sys2Proof/Config.lean ====
section
/-! DEFINITION. The free values: what the spec leaves open and the machine still has to hold or answer. None has a
body, so no proof can know one. The first argument of those for reset is the state's `freeIndex`, so that two resets
need not leave the same values (assumption log 6). -/

namespace Sys2Proof.Config

/-- `K` after `rst` was asserted: "unspecified" (R37, U3). -/
opaque resetK : Nat → BitVec 5
/-- `MASK` after `rst` was asserted: "unspecified" (R37, U3). -/
opaque resetMask : Nat → Word
/-- `M_LEN` after `rst` was asserted: "unspecified" (R37, U3). -/
opaque resetLen : Nat → Word
/-- `M_COUNT` after `rst` was asserted: "unspecified" (R37, U3). -/
opaque resetCount : Nat → Word
/-- `SD` after `rst` was asserted: "unspecified" (R37, U3). -/
opaque resetSd : Nat → Nat
/-- `S1_O` after `rst` was asserted: "unspecified" (R37, U3). -/
opaque resetS1O : Nat → Int
/-- `S2_O` after `rst` was asserted: "unspecified" (R37, U3). -/
opaque resetS2O : Nat → Nat
/-- `S1_C` after `rst` was asserted: "unspecified" (R37, U3). -/
opaque resetS1C : Nat → Int
/-- `S2_C` after `rst` was asserted: "unspecified" (R37, U3). -/
opaque resetS2C : Nat → Nat
/-- `D_NAN` after `rst` was asserted: "unspecified" (R37, U3). -/
opaque resetDNan : Nat → Bool
/-- `D_INF` after `rst` was asserted: "unspecified" (R37, U3). -/
opaque resetDInf : Nat → Bool
/-- `O_NAN` after `rst` was asserted: "unspecified" (R37, U3). -/
opaque resetONan : Nat → Bool
/-- `O_PINF` after `rst` was asserted: "unspecified" (R37, U3). -/
opaque resetOPinf : Nat → Bool
/-- `O_NINF` after `rst` was asserted: "unspecified" (R37, U3). -/
opaque resetONinf : Nat → Bool
/-- `C_NAN` after `rst` was asserted: "unspecified" (R37, U3). -/
opaque resetCNan : Nat → Bool
/-- `C_PINF` after `rst` was asserted: "unspecified" (R37, U3). -/
opaque resetCPinf : Nat → Bool
/-- `C_NINF` after `rst` was asserted: "unspecified" (R37, U3). -/
opaque resetCNinf : Nat → Bool

/-- `RN64(num / den)` for a rational outside the range R174 defines it on (assumption log 8). -/
opaque rn64Outside : Int → Nat → Double
/-- `RN64SQRT(num / den)` for a rational outside the range R175 defines it on (assumption log 8). -/
opaque rn64SqrtOutside : Int → Nat → Double

end Sys2Proof.Config
end

