-- ==== Sys2Proof/Machine/Numerics.lean ====
section
/-! DEFINITION. The binary64 result format and the two rounding functions (spec/42_numerics.md R173 to R176). A rational
`q` is given as `num / den` with `den > 0` (assumption log 16); everything is exact until the one rounding. -/

namespace Sys2Proof.Machine

/-- `ZERO64`, +0.0 (R176). -/
def zero64 : Double := 0x0000000000000000
/-- `PINF64`, +infinity (R176). -/
def pinf64 : Double := 0x7FF0000000000000
/-- `NINF64`, -infinity (R176). -/
def ninf64 : Double := 0xFFF0000000000000
/-- `QNAN64`, the one NaN the block returns (R176). -/
def qnan64 : Double := 0x7FF8000000000000

/-- `2^e ≤ num / den`, for an exponent of either sign. -/
abbrev PowLe (e : Int) (num den : Nat) : Prop := den * 2 ^ e.toNat ≤ num * 2 ^ (-e).toNat

/-- For `num, den > 0`, the integer `e` with `2^e ≤ num / den < 2^(e+1)` (R174). -/
def floorLog2 (num den : Nat) : Int :=
  let e : Int := (num.log2 : Int) - (den.log2 : Int)
  if PowLe e num den then e else e - 1

/-- The integer nearest to `n / d`, a tie going to the even one (R174). -/
def roundHalfEven (n d : Nat) : Nat :=
  if 2 * (n % d) > d ∨ (2 * (n % d) = d ∧ n / d % 2 = 1) then n / d + 1 else n / d

/-- The pattern with sign `sg`, exponent `e` and significand `M`, where `2^52 ≤ M ≤ 2^53`; a significand that rounding
carried to `2^53` moves into the exponent (the last two lines of R174 and R175; R173). -/
def pack64 (sg : Bool) (e : Int) (M : Nat) : Double :=
  if M = 2 ^ 53 then BitVec.ofBool sg ++ BitVec.ofInt 11 (e + 1 + 1023) ++ (0 : BitVec 52)
  else BitVec.ofBool sg ++ BitVec.ofInt 11 (e + 1023) ++ BitVec.ofNat 52 (M - 2 ^ 52)

/-- The range R174 defines `RN64` on, 0 apart: `2^-1022 ≤ |num / den| < 2^1023`. -/
abbrev InRange64 (num : Int) (den : Nat) : Prop :=
  den ≤ num.natAbs * 2 ^ 1022 ∧ num.natAbs < den * 2 ^ 1023

/-- `RN64(num / den)`, to nearest, ties to even (R174). -/
def rn64 (num : Int) (den : Nat) : Double :=
  if num = 0 then zero64
  else if InRange64 num den then
    let e := floorLog2 num.natAbs den
    pack64 (decide (num < 0)) e
      (roundHalfEven (num.natAbs * 2 ^ (52 - e).toNat) (den * 2 ^ (e - 52).toNat))
  else Config.rn64Outside num den

/-- The largest `x` that agrees with `acc` above its `bits` low bits and has `x * x ≤ n`, found bit by bit. -/
def isqrtBits (n : Nat) : Nat → Nat → Nat
  | 0, acc => acc
  | bits + 1, acc =>
    if (acc + 2 ^ bits) * (acc + 2 ^ bits) ≤ n then isqrtBits n bits (acc + 2 ^ bits)
    else isqrtBits n bits acc

/-- `isqrt(n)`: "the largest integer whose square is ≤ n" (R175). -/
def isqrt (n : Nat) : Nat := isqrtBits n (n.log2 / 2 + 1) 0

/-- The range R175 defines `RN64SQRT` on, 0 apart: `2^-2044 ≤ num / den < 2^2046`. -/
abbrev InRangeSqrt64 (num : Int) (den : Nat) : Prop :=
  0 < num ∧ den ≤ num.natAbs * 2 ^ 2044 ∧ num.natAbs < den * 2 ^ 2046

/-- The integer nearest to `sqrt(n / d)`, a tie going to the even one: `M` and the sign of `c` of R175, with
`T = n / d`. -/
def roundSqrtHalfEven (n d : Nat) : Nat :=
  let M := isqrt (n / d)
  let half := (4 * M * M + 4 * M + 1) * d
  if 4 * n > half ∨ (4 * n = half ∧ M % 2 = 1) then M + 1 else M

/-- `RN64SQRT(num / den)`: one rounding of the exact root, to nearest, ties to even (R175). -/
def rn64Sqrt (num : Int) (den : Nat) : Double :=
  if num = 0 then zero64
  else if InRangeSqrt64 num den then
    let e := floorLog2 num.natAbs den / 2
    pack64 false e
      (roundSqrtHalfEven (num.natAbs * 2 ^ (104 - 2 * e).toNat) (den * 2 ^ (2 * e - 104).toNat))
  else Config.rn64SqrtOutside num den

/-- The sign bit of a binary64 pattern (R173). -/
def sign64 (r : Double) : Bool := r.getLsbD 63

/-- The biased exponent of a binary64 pattern (R173). -/
def expo64 (r : Double) : BitVec 11 := r.extractLsb' 52 11

/-- The fraction of a binary64 pattern (R173). -/
def frac64 (r : Double) : BitVec 52 := r.extractLsb' 0 52

/-- A normal binary64 pattern: `1 ≤ be ≤ 2046` (R173). -/
abbrev IsNormal64 (r : Double) : Prop := 1 ≤ (expo64 r).toNat ∧ (expo64 r).toNat ≤ 2046

/-- A zero of either sign (R173, R176). -/
abbrev IsZero64 (r : Double) : Prop := expo64 r = 0 ∧ frac64 r = 0

/-- What a normal pattern, or a zero, denotes (R173, R176): `(-1)^sg × (2^52 + fr) × 2^(be - 1075)`. -/
def val64 (r : Double) : ℚ :=
  if IsZero64 r then 0
  else (if sign64 r then -1 else 1) * (2 ^ 52 + ((frac64 r).toNat : ℚ)) * 2 ^ (expo64 r).toNat / 2 ^ 1075

end Sys2Proof.Machine
end

