-- ==== Sys2Proof/Machine/Ops.lean ====
section
/-! DEFINITION. The named operations the meanings share: answering a command, raising an error, the mask, opening and
closing a job, the seven results, taking the host's next event, and reset. -/

namespace Sys2Proof.Machine

/-! Responses and errors (spec/30_encoding.md R76, R77; spec/60_exceptions.md R200 to R210). -/

/-- The `STATUS` code of R77. -/
def Status.code : Status → BitVec 4
  | .ok => 0
  | .error .invalidParameter => 1
  | .error .lengthMismatch => 2
  | .error .protocol => 3
  | .error .illegalCommand => 4

/-- The response word `rsp[67:0]`: `STATUS` in bits 67:64, `PAYLOAD` in bits 63:0 (R76). -/
def Response.word (r : Response) : RspWord := r.status.code ++ r.payload

/-- `respond(status, payload)` (R9): the one response of the command. -/
def State.respond (s : State) (status : Status) (payload : Double) : State :=
  { s with responses := s.responses ++ [{ status, payload }] }

/-- The state an error writes: the table of R209. Nothing is saved and control goes nowhere. -/
def State.errorWrites (s : State) : ErrorCode → State
  | .invalidParameter => { s with c := { s.c with active := false } }
  | .lengthMismatch => { s with m := { s.m with state := .idle } }
  | .protocol => s
  | .illegalCommand => s

/-- Taking an error, whole (R200, R209): the state the error writes, and a response that carries its code and payload
0. There is no return from it (R210): the next command is executed in the state this leaves. -/
def State.raise (s : State) (e : ErrorCode) : State := (s.errorWrites e).respond (.error e) 0

/-! Unit C (spec/40_bitmask_compressor.md). -/

/-- `mask(k)` (R100), the source's formula on unbounded integers: `((1 << (32 - k)) - 1) << k`. A 5-bit `k` is exactly
the range it is defined on. -/
def maskOf (k : BitVec 5) : Word := BitVec.ofNat 32 ((1 <<< (32 - k.toNat) - 1) <<< k.toNat)

/-- `bits_to_zero` is in its range (R101). -/
abbrev ValidK (k : Int) : Prop := 0 ≤ k ∧ k ≤ 31

/-- `C_ACTIVE <- 1; K <- k; MASK <- mask(k)` (R101). -/
def UnitC.opened (k : BitVec 5) : UnitC := { active := true, k := k, mask := maskOf k }

/-- `C_ACTIVE <- 0`; `K` and `MASK` keep their values (R101, R103; assumption log 10). -/
def UnitC.closed (c : UnitC) : UnitC := { c with active := false }

/-! Unit M (spec/41_fidelity_metrics.md). -/

/-- A side with its accumulators and flags at 0 (R140). -/
def Side.cleared : Side := { s1 := 0, s2 := 0, nan := false, pinf := false, ninf := false }

/-- What a successful MSTART writes: every element of unit M (R140). -/
def UnitM.opened (len : Word) : UnitM :=
  { state := .active, len := len, count := 0, sd := 0, dNan := false, dInf := false,
    o := Side.cleared, c := Side.cleared }

/-- `M_STATE <- IDLE`; every other element keeps its value (R140, R142; assumption log 10). -/
def UnitM.closed (m : UnitM) : UnitM := { m with state := .idle }

/-- A metrics job is open and takes another pair: MPUSH is not refused (R141). -/
abbrev UnitM.TakesPair (m : UnitM) : Prop := m.state = .active ∧ m.count ≠ m.len

/-- `M_COMPLETE` (R29): MREAD is not refused (R143). -/
abbrev UnitM.Complete (m : UnitM) : Prop := m.state = .active ∧ m.count = m.len

/-- N, the length of the job, as a number. -/
def UnitM.n (m : UnitM) : Nat := m.len.toNat

/-- `MSE()` (R144, R145). -/
def UnitM.mse (m : UnitM) : Double :=
  if m.n = 0 then qnan64
  else if m.dNan then qnan64
  else if m.dInf then pinf64
  else rn64 (m.sd : Int) (m.n * 2 ^ 298)

/-- `MEAN(X)` of a job of length `n` (R144, R145). -/
def Side.mean (d : Side) (n : Nat) : Double :=
  if n = 0 then qnan64
  else if d.nan ∨ (d.pinf ∧ d.ninf) then qnan64
  else if d.pinf then pinf64
  else if d.ninf then ninf64
  else rn64 d.s1 (n * 2 ^ 149)

/-- The numerator `N × S2_X − S1_X × S1_X` of `VARQ(X)` (R144). -/
def Side.varNum (d : Side) (n : Nat) : Int := (n : Int) * (d.s2 : Int) - d.s1 * d.s1

/-- The denominator `N × N × 2^298` of `VARQ(X)` (R144). -/
def varDen (n : Nat) : Nat := n * n * 2 ^ 298

/-- `VAR(X)` of a job of length `n` (R144, R145). -/
def Side.var (d : Side) (n : Nat) : Double :=
  if n = 0 then qnan64
  else if d.nan ∨ d.pinf ∨ d.ninf then qnan64
  else rn64 (d.varNum n) (varDen n)

/-- `STD(X)` of a job of length `n`: the root of the exact variance (R144, R145). -/
def Side.std (d : Side) (n : Nat) : Double :=
  if n = 0 then qnan64
  else if d.nan ∨ d.pinf ∨ d.ninf then qnan64
  else rn64Sqrt (d.varNum n) (varDen n)

/-- The common part of the seven MREAD forms (R143): PROTOCOL, or the result, and no other write. -/
def State.readResult (s : State) (result : Double) : State :=
  if s.m.Complete then s.respond .ok result else s.raise .protocol

/-! The channel (spec/20_memory.md R50, R55, R62) and reset (spec/70_reset_and_hazards.md R230). -/

/-- Take the host's next event, if it has one. -/
def State.fetch (s : State) : Option (HostEvent × State) :=
  match s.pending with
  | [] => none
  | ev :: rest => some (ev, { s with pending := rest })

/-- Unit C after `rst` (R37, R230): `C_ACTIVE = 0`, the others free (assumption log 6). -/
def UnitC.afterReset (n : Nat) : UnitC :=
  { active := false, k := Config.resetK n, mask := Config.resetMask n }

/-- Unit M after `rst` (R37, R230): `M_STATE = IDLE`, the others free (assumption log 6). -/
def UnitM.afterReset (n : Nat) : UnitM :=
  { state := .idle, len := Config.resetLen n, count := Config.resetCount n, sd := Config.resetSd n,
    dNan := Config.resetDNan n, dInf := Config.resetDInf n,
    o := { s1 := Config.resetS1O n, s2 := Config.resetS2O n, nan := Config.resetONan n,
           pinf := Config.resetOPinf n, ninf := Config.resetONinf n }
    c := { s1 := Config.resetS1C n, s2 := Config.resetS2C n, nan := Config.resetCNan n,
           pinf := Config.resetCPinf n, ninf := Config.resetCNinf n } }

/-- `rst` asserted (R230): the reset state, and no response for a command in flight, which is abandoned (assumption
log 7). -/
def State.applyReset (s : State) (_inFlight : Option CmdWord) : State :=
  { s with c := UnitC.afterReset s.freeIndex, m := UnitM.afterReset s.freeIndex,
           freeIndex := s.freeIndex + 1 }

end Sys2Proof.Machine
end

