-- ==== Sys2Proof/Machine/Compressor.lean ====
section
/-! DEFINITION. The meanings of unit C's commands (spec/40_bitmask_compressor.md R101 to R104). -/

namespace Sys2Proof.Machine

/-- CSTART k (R101): opens the job with `mask(k)`, replacing any open one; a `k` outside 0 to 31 answers
INVALID_PARAMETER and leaves no job open. Only the range test reads `k`. -/
def execCstart (k : Int) (s : State) : Host.Outcome State Fault Refusal :=
  if ValidK k then .next ({ s with c := UnitC.opened (BitVec.ofInt 5 k) }.respond .ok 0)
  else .next (s.raise .invalidParameter)

/-- CPUSH w (R102): answers `zext_64(w & MASK)`, or PROTOCOL when no job is open; no state is written. -/
def execCpush (w : Word) (s : State) : Host.Outcome State Fault Refusal :=
  if s.c.active then .next (s.respond .ok ((w &&& s.c.mask).setWidth 64))
  else .next (s.raise .protocol)

/-- CEND (R103): closes the job; accepted in every state. -/
def execCend (s : State) : Host.Outcome State Fault Refusal :=
  .next ({ s with c := s.c.closed }.respond .ok 0)

end Sys2Proof.Machine
end

