-- ==== Sys2Proof/Machine/Metrics.lean ====
section
/-! DEFINITION. The meanings of unit M's commands (spec/41_fidelity_metrics.md R140 to R146, R152 to R158). -/

namespace Sys2Proof.Machine

/-- MSTART len_o, len_c (R140): opens a job of that length with every accumulator and flag at 0, replacing any open
one; unequal lengths answer LENGTH_MISMATCH and leave no job open. -/
def execMstart (lenO lenC : Word) (s : State) : Host.Outcome State Fault Refusal :=
  if lenO = lenC then .next ({ s with m := UnitM.opened lenO }.respond .ok 0)
  else .next (s.raise .lengthMismatch)

/-- MPUSH o, c (R141): accumulates the pair, or answers PROTOCOL when no job is open or every pair has been pushed. -/
def execMpush (o c : Word) (s : State) : Host.Outcome State Fault Refusal :=
  if s.m.TakesPair then .next ({ s with m := s.m.push o c }.respond .ok 0)
  else .next (s.raise .protocol)

/-- MREAD.MSE (R152). -/
def execMreadMse (s : State) : Host.Outcome State Fault Refusal :=
  .next (s.readResult s.m.mse)

/-- MREAD.MEAN_O (R153). -/
def execMreadMeanO (s : State) : Host.Outcome State Fault Refusal :=
  .next (s.readResult (s.m.o.mean s.m.n))

/-- MREAD.MEAN_C (R154). -/
def execMreadMeanC (s : State) : Host.Outcome State Fault Refusal :=
  .next (s.readResult (s.m.c.mean s.m.n))

/-- MREAD.VAR_O (R155). -/
def execMreadVarO (s : State) : Host.Outcome State Fault Refusal :=
  .next (s.readResult (s.m.o.var s.m.n))

/-- MREAD.VAR_C (R156). -/
def execMreadVarC (s : State) : Host.Outcome State Fault Refusal :=
  .next (s.readResult (s.m.c.var s.m.n))

/-- MREAD.STD_O (R157). -/
def execMreadStdO (s : State) : Host.Outcome State Fault Refusal :=
  .next (s.readResult (s.m.o.std s.m.n))

/-- MREAD.STD_C (R158). -/
def execMreadStdC (s : State) : Host.Outcome State Fault Refusal :=
  .next (s.readResult (s.m.c.std s.m.n))

/-- MEND (R142): closes the job; accepted in every state. -/
def execMend (s : State) : Host.Outcome State Fault Refusal :=
  .next ({ s with m := s.m.closed }.respond .ok 0)

end Sys2Proof.Machine
end

