-- ==== Sys2Proof/Machine/Dispatch.lean ====
section
/-! DEFINITION. The dispatch: one arm per command, in the order of spec/opcode_table.json. -/

namespace Sys2Proof.Machine

def exec (i : Instr) (s : State) : Host.Outcome State Fault Refusal :=
  match i with
  | .cstart k => Sys2Proof.Machine.execCstart k s
  | .cpush w => Sys2Proof.Machine.execCpush w s
  | .cend => Sys2Proof.Machine.execCend s
  | .mstart lenO lenC => Sys2Proof.Machine.execMstart lenO lenC s
  | .mpush o c => Sys2Proof.Machine.execMpush o c s
  | .mreadMse => Sys2Proof.Machine.execMreadMse s
  | .mreadMeanO => Sys2Proof.Machine.execMreadMeanO s
  | .mreadMeanC => Sys2Proof.Machine.execMreadMeanC s
  | .mreadVarO => Sys2Proof.Machine.execMreadVarO s
  | .mreadVarC => Sys2Proof.Machine.execMreadVarC s
  | .mreadStdO => Sys2Proof.Machine.execMreadStdO s
  | .mreadStdC => Sys2Proof.Machine.execMreadStdC s
  | .mend => Sys2Proof.Machine.execMend s

end Sys2Proof.Machine
end

