-- ==== Sys2Proof/Machine/Step.lean ====
section
/-! DEFINITION. One step of the machine: the host's next event (spec/20_memory.md R50, R55, R62;
spec/30_encoding.md R75, R81; spec/70_reset_and_hazards.md R230). -/

namespace Sys2Proof.Machine

/-- One step. A presented word is decoded and executed, an illegal one answered ILLEGAL_COMMAND (R204); an asserted
reset is applied (R230); with no event the block "simply holds its state" (R217, assumption log 4). -/
def step (s : State) : Host.Outcome State Fault Refusal :=
  match s.fetch with
  | none => .next s
  | some (.present w, t) =>
    match decode w with
    | .ok i => exec i t
    | .error _ => .next (t.raise .illegalCommand)
  | some (.assertReset inFlight, t) => .next (t.applyReset inFlight)

/-- The host presents, as its next event, the command whose bits are `w` (assumption log 11). -/
def State.withFetchWord (s : State) (nbits w : Nat) : State :=
  { s with pending := .present (wordOfTableBits nbits w) :: s.pending }

end Sys2Proof.Machine
end

