-- ==== Sys2Proof/Machine/HostCalls.lean ====
section
/-! DEFINITION. The host procedures COMPRESS and METRICS (spec/30_encoding.md R80; spec/00_scope.md R12;
spec/40_bitmask_compressor.md R108; spec/41_fidelity_metrics.md R150): what a host presents for the source's calls,
and what it makes of the responses. They are no part of the block (assumption log 15). What the host does with an
argument that fits no command word is DESIGN CHOICE (assumption log 17). -/

namespace Sys2Proof.Machine

/-- The host presents one command, the core makes one step, and the host takes the response (R50, R62). -/
def State.ask (s : State) (i : Instr) : Option (State × Response) :=
  match step { s with pending := [.present (encode i)] } with
  | .next t => t.responses.getLast?.map fun r => (t, r)
  | .fault _ => none
  | .refused _ => none

/-- The host presents commands in turn and "stops at the first response whose status is not `OK`, returning that
status as the call's error" (R80); otherwise the payloads, in order. -/
def State.call (s : State) : List Instr → Option (State × Except ErrorCode (List Double))
  | [] => some (s, .ok [])
  | i :: rest =>
    match s.ask i with
    | none => none
    | some (t, ⟨.error e, _⟩) => some (t, .error e)
    | some (t, ⟨.ok, p⟩) => (t.call rest).map fun (u, r) => (u, r.map (p :: ·))

/-- DESIGN CHOICE (assumption log 17): the `k` the host writes into CSTART. A `k` that fits the signed 32-bit operand
(R74, D5) is written as it is. No command word carries another one, and the spec does not say what the host then
presents: the model's host presents the nearest `k` that fits, so that CSTART answers INVALID_PARAMETER, the result R108
gives every `k` below 0 or above 31, and nothing wraps (R101). -/
def cstartOperand (k : Int) : Int :=
  max (-2 ^ 31) (min k (2 ^ 31 - 1))

/-- The commands of `COMPRESS k, data` (R80), for every integer `k`; beyond 32 bits `cstartOperand` says what is presented
(DESIGN CHOICE, assumption log 17). -/
def compressCommands (k : Int) (data : List Word) : List Instr :=
  .cstart (cstartOperand k) :: (data.map .cpush ++ [.cend])

/-- `compress(data, k)` (R12, R108): "the list of the N CPUSH payloads' low 32 bits, or INVALID_PARAMETER" (R80).
For a `k` that fits no 32-bit signed operand: DESIGN CHOICE, see `cstartOperand` (assumption log 17). -/
def State.compress (s : State) (k : Int) (data : List Word) : Option (State × Except ErrorCode (List Word)) :=
  (s.call (compressCommands k data)).map fun (t, r) =>
    (t, r.map fun payloads => (payloads.drop 1).dropLast.map (·.setWidth 32))

/-- The seven MREAD forms in the order of `sel` (R80, R83). -/
def allReads : List Instr :=
  [.mreadMse, .mreadMeanO, .mreadMeanC, .mreadVarO, .mreadVarC, .mreadStdO, .mreadStdC]

/-- The two lengths can be written in a command word, whose length operands have 32 bits (R6 `LEN_W`, D10). -/
def lengthsFit (original compressed : List Word) : Bool :=
  decide (original.length < 2 ^ 32 ∧ compressed.length < 2 ^ 32)

/-- The commands of `METRICS original, compressed` (R80). Where the lengths differ no MPUSH is reached: MSTART fails. -/
def metricsCommands (original compressed : List Word) : List Instr :=
  .mstart (BitVec.ofNat 32 original.length) (BitVec.ofNat 32 compressed.length)
    :: ((original.zip compressed).map (fun p => .mpush p.1 p.2) ++ allReads ++ [.mend])

/-- The FidelityReport (R11): the MSE and, per statistic, the pair (original, compressed). -/
structure FidelityReport where
  mse : Double
  mean : Double × Double
  variance : Double × Double
  stdDev : Double × Double
  deriving DecidableEq, Repr

/-- The report that seven payloads make, in the order of `sel` (R83). -/
def FidelityReport.ofPayloads : List Double → Option FidelityReport
  | [mse, meanO, meanC, varO, varC, stdO, stdC] =>
    some { mse := mse, mean := (meanO, meanC), variance := (varO, varC), stdDev := (stdO, stdC) }
  | _ => none

/-- `METRICS original, compressed` (R80, R150): "the seven MREAD payloads, or LENGTH_MISMATCH from MSTART".
Where a length does not fit the host presents nothing and answers `none`: U10 (spec/93_implementation_defined.md) says
`refuse`; that this holds before the lengths are compared is DESIGN CHOICE (assumption log 17). -/
def State.metrics (s : State) (original compressed : List Word) :
    Option (State × Except ErrorCode (Option FidelityReport)) :=
  if lengthsFit original compressed then
    (s.call (metricsCommands original compressed)).map fun (t, r) =>
      (t, r.map fun payloads =>
        FidelityReport.ofPayloads ((payloads.drop (1 + (original.zip compressed).length)).take 7))
  else none

end Sys2Proof.Machine
end

