-- ==== Sys2Proof/Safety.lean ====
section
/-! DEFINITION. The terms claims are made in: what a job's data ought to be (spec/10_state.md R30 to R32, R35), the
invariants of R34, when two states cannot be told apart (R34 item 4), and when a binary64 pattern is the correct
rounding of an exact number (spec/42_numerics.md R173 to R175). -/

namespace Sys2Proof.Machine

/-- `exec i s` answers a next state `t` in which the host has taken the one response `r` (R62). -/
def Answers (s : State) (i : Instr) (t : State) (r : Response) : Prop :=
  exec i s = .next t ∧ t.responses = s.responses ++ [r]

/-- The commands of unit C; the others are unit M's (R20, R72). -/
def ofUnitC : Instr → Bool
  | .cstart _ => true
  | .cpush _ => true
  | .cend => true
  | .mstart _ _ => false
  | .mpush _ _ => false
  | .mreadMse => false
  | .mreadMeanO => false
  | .mreadMeanC => false
  | .mreadVarO => false
  | .mreadVarC => false
  | .mreadStdO => false
  | .mreadStdC => false
  | .mend => false

/-! What unit M ought to hold of the pairs pushed in a job. -/

/-- `Σ m(x)` over the finite words (R31). -/
def sumS1 (xs : List Word) : Int := ((xs.filter fun x => decide (IsFinite x)).map intOf).sum

/-- `Σ m(x)^2` over the finite words (R32). -/
def sumS2 (xs : List Word) : Nat := ((xs.filter fun x => decide (IsFinite x)).map fun x => (intOf x).natAbs ^ 2).sum

/-- `Σ (m(o) − m(c))^2` over the pairs in which both words are finite (R30). -/
def sumSd (ps : List (Word × Word)) : Nat :=
  ((ps.filter fun p => decide (IsFinite p.1 ∧ IsFinite p.2)).map fun p => (intOf p.1 - intOf p.2).natAbs ^ 2).sum

/-- One side's data as R31, R32 and R35 state them of the words pushed on it. -/
def sideOf (xs : List Word) : Side :=
  { s1 := sumS1 xs
    s2 := sumS2 xs
    nan := xs.any fun x => decide (IsNan x)
    pinf := xs.any fun x => decide (x = pinf32)
    ninf := xs.any fun x => decide (x = ninf32) }

/-- Unit M in an open job of length `len` after these pairs, as R26 to R28, R30 to R32 and R35 state it. -/
def jobOf (len : Word) (ps : List (Word × Word)) : UnitM :=
  { state := .active
    len := len
    count := BitVec.ofNat 32 ps.length
    sd := sumSd ps
    dNan := ps.any fun p => decide (PairIsNan p.1 p.2)
    dInf := ps.any fun p => decide (PairIsInf p.1 p.2)
    o := sideOf (ps.map (·.1))
    c := sideOf (ps.map (·.2)) }

/-- Every word of the buffer is finite. -/
abbrev AllFinite (xs : List Word) : Prop := ∀ x ∈ xs, IsFinite x

/-! The invariants of R34. -/

/-- R34 item 1; that `K` is at most 31 is its width. -/
def UnitC.Inv (c : UnitC) : Prop := c.active = true → c.mask = maskOf c.k

/-- R34 items 2 and 3: an open job's data are exactly those of some pairs, `M_COUNT` of them and at most `M_LEN`. -/
def UnitM.Inv (m : UnitM) : Prop :=
  m.state = .active → ∃ ps : List (Word × Word), ps.length ≤ m.len.toNat ∧ m = jobOf m.len ps

/-- The invariants of R34, items 1 to 3. -/
def State.Inv (s : State) : Prop := s.c.Inv ∧ s.m.Inv

/-! What cannot be told apart (R34 item 4): the data of a unit with no open job. -/

/-- Two states of unit C that differ at most in data that mean nothing. -/
def UnitC.SameJob (a b : UnitC) : Prop := a.active = b.active ∧ (a.active = true → a = b)

/-- Two states of unit M that differ at most in data that mean nothing. -/
def UnitM.SameJob (a b : UnitM) : Prop := a.state = b.state ∧ (a.state = .active → a = b)

/-- Two states that differ at most in data that mean nothing and in the index of the free values. -/
def State.SameView (s t : State) : Prop :=
  s.c.SameJob t.c ∧ s.m.SameJob t.m ∧ s.pending = t.pending ∧ s.responses = t.responses

/-! Correct rounding. -/

/-- `r` is the binary64 pattern of `x` rounded once, to nearest, ties to even (R173 to R176): a zero or a normal
pattern; +0 for 0; no zero or normal pattern denotes a closer number; and where one that denotes another number is as
close, the fraction of `r` is even. -/
def RoundsTo (r : Double) (x : ℝ) : Prop :=
  (IsZero64 r ∨ IsNormal64 r) ∧ (x = 0 → r = zero64) ∧
  ∀ p : Double, IsZero64 p ∨ IsNormal64 p →
    |(val64 r : ℝ) - x| ≤ |(val64 p : ℝ) - x| ∧
    (|(val64 p : ℝ) - x| = |(val64 r : ℝ) - x| → val64 p ≠ val64 r → (frac64 r).getLsbD 0 = false)

/-- The mean of a list, an exact rational (R147). -/
def meanOf (xs : List ℚ) : ℚ := xs.sum / xs.length

/-- The population variance of a list, by its definition with two passes (R147). -/
def varianceOf (xs : List ℚ) : ℚ := meanOf (xs.map fun x => (x - meanOf xs) ^ 2)

/-- The mean squared error of the pairs, an exact rational (R147). -/
def mseOf (ps : List (Word × Word)) : ℚ := meanOf (ps.map fun p => (valOf p.1 - valOf p.2) ^ 2)

end Sys2Proof.Machine
end

