-- ==== Sys2Proof/Certificates/Slice0/Obligations.lean ====
section
/-! DEFINITION. The statements for the provers. Each docstring names the rule of spec/ it comes from;
OBLIGATIONS.json lists them. -/

open Sys2Proof Sys2Proof.Machine

/-! Encoding (spec/30_encoding.md). -/

/-- R71 to R74, R81, R83: decoding the word of a well-formed command gives the command back, every operand at every
value its field holds. -/
def Obligations.DecodeOfEncode : Prop :=
  ∀ i : Instr, i.wellFormed = true → decode (encode i) = .ok i

/-- R73, R75, R81: a legal word decodes to a well-formed command whose word it is, so no two words mean one command. -/
def Obligations.EncodeOfDecode : Prop :=
  ∀ (w : CmdWord) (i : Instr), decode w = .ok i → i.wellFormed = true ∧ encode i = w

/-- R81: the decoder takes "the first row of `opcode_table.json` with `cmd & mask = match`", the rows are disjoint, and
a word in no row is illegal. -/
def Obligations.DecodeFollowsOpcodeTable : Prop :=
  ∀ w : CmdWord,
    (decode w).toOption.map Instr.mnemonic =
      (opcodeTable.find? fun r => decide (w &&& r.mask = r.pattern)).map OpcodeRow.mnemonic ∧
    ∀ r ∈ opcodeTable, ∀ q ∈ opcodeTable, w &&& r.mask = r.pattern → w &&& q.mask = q.pattern → r = q

/-- R74: `k = s32(B)`, the lengths `u(A)` and `u(B)`, the elements as bit patterns, `sel = u(B[2:0])`; no operand is
scaled, shifted or split. -/
def Obligations.OperandsAreWholeFields : Prop :=
  ∀ w : CmdWord,
    (∀ k, decode w = .ok (.cstart k) →
      k = if (fieldB w).getLsbD 31 then ((fieldB w).toNat : Int) - 2 ^ 32 else ((fieldB w).toNat : Int)) ∧
    (∀ a b, decode w = .ok (.mstart a b) → a = w.extractLsb' 32 32 ∧ b = w.extractLsb' 0 32) ∧
    (∀ x, decode w = .ok (.cpush x) → x = w.extractLsb' 0 32) ∧
    (∀ o c, decode w = .ok (.mpush o c) → o = w.extractLsb' 32 32 ∧ c = w.extractLsb' 0 32) ∧
    (∀ i ∈ allReads, decode w = .ok i → allReads[(w.extractLsb' 0 3).toNat]? = some i)

/-- R75: the illegal words are those of its clauses (a) to (d), the all-zeros and the all-ones word among them, and each
is answered ILLEGAL_COMMAND with payload 0 and the state unchanged. -/
def Obligations.IllegalWordsAndTheirAnswer : Prop :=
  (∀ w : CmdWord, (∃ e, decode w = .error e) ↔
    fieldOp w ∉ [0x10, 0x11, 0x12, 0x20, 0x21, 0x22, 0x23] ∨
    (fieldOp w ∈ [0x10, 0x11, 0x12, 0x22, 0x23] ∧ fieldA w ≠ 0) ∨
    (fieldOp w ∈ [0x12, 0x23] ∧ fieldB w ≠ 0) ∨
    (fieldOp w = 0x22 ∧ (fieldB w).extractLsb' 3 29 ≠ 0) ∨
    (fieldOp w = 0x22 ∧ (fieldB w).extractLsb' 0 3 = 7)) ∧
  (∃ e, decode 0 = .error e) ∧ (∃ e, decode (BitVec.allOnes 72) = .error e) ∧
  (∀ (s : State) (w : CmdWord) (rest : List HostEvent) (e : DecodeError),
    s.pending = .present w :: rest → decode w = .error e →
    step s = .next { s with pending := rest, responses := s.responses ++ [⟨.error .illegalCommand, 0⟩] })

/-- R71 to R74: a few words written out from the fields decode to the commands they stand for. -/
def Obligations.SampleWordsDecode : Prop :=
  decode 0x100000000000000010 = .ok (.cstart 16) ∧
  decode 0x1000000000FFFFFFFF = .ok (.cstart (-1)) ∧
  decode 0x11000000003DCCCCCD = .ok (.cpush 0x3DCCCCCD) ∧
  decode 0x120000000000000000 = .ok .cend ∧
  decode 0x200000000A0000000B = .ok (.mstart 10 11) ∧
  decode 0x213DCCCCCD3DCC0000 = .ok (.mpush 0x3DCCCCCD 0x3DCC0000) ∧
  decode 0x220000000000000006 = .ok .mreadStdC ∧
  decode 0x220000000000000007 = .error .mreadSelSeven ∧
  decode 0x230000000000000000 = .ok .mend

/-! The step and the channel (spec/20_memory.md, spec/70_reset_and_hazards.md). -/

/-- R50, R55: where the host presents a legal word, the step is `exec` of the decoded command on the state with that
event taken; so presenting a well-formed command's word runs exactly it. -/
def Obligations.StepRunsTheDecodedCommand : Prop :=
  (∀ (s : State) (w : CmdWord) (rest : List HostEvent) (i : Instr),
    s.pending = .present w :: rest → decode w = .ok i → step s = exec i { s with pending := rest }) ∧
  (∀ (s : State) (i : Instr), i.wellFormed = true → step (s.withFetchWord 72 (encode i).toNat) = exec i s)

/-- R62, R217, R230, R235: a step never stops; a presented word, any of the 2^72, gets exactly one response, an asserted
reset none, and with no event the block holds its state. -/
def Obligations.EveryEventIsTakenAndAnswered : Prop :=
  ∀ s : State, ∃ t, step s = .next t ∧
    match s.pending with
    | [] => t = s
    | .present _ :: rest => t.pending = rest ∧ ∃ r, t.responses = s.responses ++ [r]
    | .assertReset _ :: rest => t.pending = rest ∧ t.responses = s.responses

/-- R233: every presented command is answered after finitely many steps: as many steps as the host has events answer
all of them, in order, adding one response for each command. -/
def Obligations.RunAnswersEveryCommand : Prop :=
  ∀ s : State, ∃ t, Sys2Proof.core.run s.pending.length s = .next t ∧ t.pending = [] ∧
    s.responses <+: t.responses ∧
    t.responses.length = s.responses.length +
      s.pending.countP (fun ev => match ev with | .present _ => true | .assertReset _ => false)

/-- R76: the response word's fields, and the payload of every answer. -/
def Obligations.ResponseWordAndPayload : Prop :=
  (∀ r : Response, r.word.extractLsb' 64 4 = r.status.code ∧ r.word.extractLsb' 0 64 = r.payload) ∧
  (∀ (i : Instr) (s t : State) (r : Response), Answers s i t r →
    (r.status ≠ .ok → r.payload = 0) ∧
    (r.status = .ok →
      match i with
      | .cpush w => r.payload = (w &&& s.c.mask).setWidth 64
      | .mreadMse => r.payload = s.m.mse
      | .mreadMeanO => r.payload = s.m.o.mean s.m.n
      | .mreadMeanC => r.payload = s.m.c.mean s.m.n
      | .mreadVarO => r.payload = s.m.o.var s.m.n
      | .mreadVarC => r.payload = s.m.c.var s.m.n
      | .mreadStdO => r.payload = s.m.o.std s.m.n
      | .mreadStdC => r.payload = s.m.c.std s.m.n
      | .cstart _ => r.payload = 0
      | .cend => r.payload = 0
      | .mstart _ _ => r.payload = 0
      | .mpush _ _ => r.payload = 0
      | .mend => r.payload = 0))

/-- R77: the codes, and exactly when each status is raised. -/
def Obligations.StatusIsRaisedExactlyWhen : Prop :=
  (Status.code .ok = 0 ∧ Status.code (.error .invalidParameter) = 1 ∧ Status.code (.error .lengthMismatch) = 2 ∧
    Status.code (.error .protocol) = 3 ∧ Status.code (.error .illegalCommand) = 4) ∧
  (∀ (s t : State) (w : CmdWord) (rest : List HostEvent) (r : Response),
    s.pending = .present w :: rest → step s = .next t → t.responses = s.responses ++ [r] →
    (r.status = .error .invalidParameter ↔ ∃ k, decode w = .ok (.cstart k) ∧ (k < 0 ∨ 31 < k)) ∧
    (r.status = .error .lengthMismatch ↔ ∃ a b, decode w = .ok (.mstart a b) ∧ a ≠ b) ∧
    (r.status = .error .protocol ↔
      (∃ x, decode w = .ok (.cpush x) ∧ s.c.active = false) ∨
      (∃ o c, decode w = .ok (.mpush o c) ∧ (s.m.state = .idle ∨ s.m.count = s.m.len)) ∨
      (∃ i ∈ allReads, decode w = .ok i ∧ (s.m.state = .idle ∨ s.m.count ≠ s.m.len))) ∧
    (r.status = .error .illegalCommand ↔ ∃ e, decode w = .error e))

/-! Unit C (spec/40_bitmask_compressor.md). -/

/-- R101: the command's word; a `k` from 0 to 31 opens a job with that `k` and the mask `2^32 - 2^k`; any other answers
INVALID_PARAMETER and leaves no job open. Nothing else changes. -/
def Obligations.CstartOpensOrRejects : Prop :=
  ∀ (k : Int) (s : State),
    (-2 ^ 31 ≤ k ∧ k < 2 ^ 31 → decode (assemble 0x10 0 (BitVec.ofInt 32 k)) = .ok (.cstart k)) ∧
    (0 ≤ k ∧ k ≤ 31 → ∃ t, exec (.cstart k) s = .next t ∧
      t.c.active = true ∧ (t.c.k.toNat : Int) = k ∧ t.c.mask.toNat = 2 ^ 32 - 2 ^ k.toNat ∧
      t.m = s.m ∧ t.pending = s.pending ∧ t.freeIndex = s.freeIndex ∧
      t.responses = s.responses ++ [⟨.ok, 0⟩]) ∧
    (k < 0 ∨ 31 < k → exec (.cstart k) s = .next { s with
      c := { s.c with active := false }
      responses := s.responses ++ [⟨.error .invalidParameter, 0⟩] })

/-- R102: the command's word; CPUSH answers the masked word where a job is open, PROTOCOL where none is, and writes no state. -/
def Obligations.CpushAnswersTheMaskedWord : Prop :=
  ∀ (w : Word) (s : State),
    decode (assemble 0x11 0 w) = .ok (.cpush w) ∧
    (s.c.active = true → exec (.cpush w) s = .next { s with
      responses := s.responses ++ [⟨.ok, (w &&& s.c.mask).setWidth 64⟩] }) ∧
    (s.c.active = false → exec (.cpush w) s = .next { s with
      responses := s.responses ++ [⟨.error .protocol, 0⟩] })

/-- R103: the command's word; CEND is accepted in every state, leaves no job open, and writes nothing else. -/
def Obligations.CendClosesTheJob : Prop :=
  decode (assemble 0x12 0 0) = .ok .cend ∧ ∀ s : State,
    exec .cend s = .next { s with
      c := { s.c with active := false }, responses := s.responses ++ [⟨.ok, 0⟩] } ∧
    (s.c.active = false → exec .cend s = .next { s with responses := s.responses ++ [⟨.ok, 0⟩] })

/-- R100: the mask's value, its bits, and its other form. -/
def Obligations.MaskHasTheTopBits : Prop :=
  ∀ k : BitVec 5, (maskOf k).toNat = 2 ^ 32 - 2 ^ k.toNat ∧
    (∀ i < 32, (maskOf k).getLsbD i = decide (k.toNat ≤ i)) ∧ maskOf k = (0xFFFFFFFF : Word) <<< k.toNat

/-- R109: masking twice with one mask is masking once, and two masks together are the shorter one. -/
def Obligations.MaskingIsIdempotent : Prop :=
  ∀ (w : Word) (j k l : BitVec 5), l.toNat = max j.toNat k.toNat →
    (w &&& maskOf k) &&& maskOf k = w &&& maskOf k ∧ (w &&& maskOf j) &&& maskOf k = w &&& maskOf l

/-- R107: which fields of a word the mask touches, by k. -/
def Obligations.MaskTouchesFieldsByK : Prop :=
  ∀ (w : Word) (k : BitVec 5),
    signOf (w &&& maskOf k) = signOf w ∧
    (k.toNat = 0 → expoOf (w &&& maskOf k) = expoOf w ∧ mantOf (w &&& maskOf k) = mantOf w) ∧
    (1 ≤ k.toNat ∧ k.toNat ≤ 22 → expoOf (w &&& maskOf k) = expoOf w ∧
      mantOf (w &&& maskOf k) = (mantOf w >>> k.toNat) <<< k.toNat) ∧
    (k.toNat = 23 → expoOf (w &&& maskOf k) = expoOf w ∧ mantOf (w &&& maskOf k) = 0) ∧
    (24 ≤ k.toNat ∧ k.toNat ≤ 30 →
      expoOf (w &&& maskOf k) = (expoOf w >>> (k.toNat - 23)) <<< (k.toNat - 23) ∧ mantOf (w &&& maskOf k) = 0) ∧
    (k.toNat = 31 → expoOf (w &&& maskOf k) = 0 ∧ mantOf (w &&& maskOf k) = 0)

/-- R106: what the mask makes of a zero, a subnormal, a normal, an infinity and a NaN. -/
def Obligations.MaskOnSpecialInputs : Prop :=
  ∀ (w c : Word) (k : BitVec 5), c = w &&& maskOf k →
    signOf c = signOf w ∧
    (IsFinite w → IsFinite c) ∧
    (IsZero w → c = w) ∧
    (IsSubnormal w → expoOf c = 0 ∧
      (k.toNat ≤ 22 → mantOf c = (mantOf w >>> k.toNat) <<< k.toNat) ∧ (23 ≤ k.toNat → IsZero c)) ∧
    (IsNormal w →
      (k.toNat ≤ 23 → IsNormal c ∧ expoOf c = expoOf w ∧ magOf c ≤ magOf w) ∧
      (24 ≤ k.toNat ∧ k.toNat ≤ 30 → expoOf c = expoOf w &&& ((0xFF : BitVec 8) <<< (k.toNat - 23)) ∧ mantOf c = 0) ∧
      (k.toNat = 31 → IsZero c)) ∧
    (IsInf w → k.toNat ≤ 23 → c = w) ∧
    (IsNan w → k.toNat ≤ 22 →
      (IsNan c ∧ mantOf c = (mantOf w >>> k.toNat) <<< k.toNat) ∨ (IsInf c ∧ (mantOf w).toNat < 2 ^ k.toNat)) ∧
    (IsNan w → k.toNat = 23 → IsInf c) ∧
    (¬ IsFinite w →
      (24 ≤ k.toNat ∧ k.toNat ≤ 30 → expoOf c = (0xFF : BitVec 8) <<< (k.toNat - 23) ∧ mantOf c = 0 ∧ IsFinite c) ∧
      (k.toNat = 31 → IsZero c))

/-- R110: the quantization error of a finite word: the masked word is finite, of the same sign and no larger; the error
is exact for k up to 23 and below `2^(E - 23 + k)` for every k. -/
def Obligations.QuantizationErrorBound : Prop :=
  ∀ (w c : Word) (k : BitVec 5), IsFinite w → c = w &&& maskOf k →
    IsFinite c ∧ signOf c = signOf w ∧ magOf c ≤ magOf w ∧
    (k.toNat ≤ 23 → expoOf c = expoOf w ∧
      |valOf w - valOf c| = ((w.toNat % 2 ^ k.toNat : ℕ) : ℚ) * 2 ^ (unbiasedOf w - 23)) ∧
    |valOf w - valOf c| ≤ |valOf w| ∧ |valOf w| < 2 ^ (unbiasedOf w + 1) ∧
    |valOf w - valOf c| < 2 ^ (unbiasedOf w - 23 + k.toNat)

/-- R108, R80: from any state, the host's COMPRESS answers INVALID_PARAMETER for a `k` outside 0 to 31, whatever the
buffer, and otherwise the buffer of the masked words; it leaves unit M as it was and no job open. For a `k` that fits no
32-bit operand the command presented is the model's choice (assumption log 17); the answer is the one R108 gives. -/
def Obligations.CompressMasksEveryElement : Prop :=
  ∀ (s : State) (k : Int) (data : List Word),
    ∃ t, t.m = s.m ∧ t.c.active = false ∧
      s.compress k data = some (t,
        if 0 ≤ k ∧ k ≤ 31 then .ok (data.map fun w => w &&& maskOf (BitVec.ofInt 5 k))
        else .error .invalidParameter)

/-- R105: `compress(data, 0)` is bit-identical to `data`, for every word, finite or not. -/
def Obligations.CompressAtZeroIsIdentity : Prop :=
  (maskOf 0 = 0xFFFFFFFF ∧ ∀ w : Word, w &&& maskOf 0 = w) ∧
  (∀ (s : State) (data : List Word), ∃ t, s.compress 0 data = some (t, .ok data))

/-! Unit M (spec/41_fidelity_metrics.md). -/

/-- R140: the command's word; equal lengths open a job with every accumulator and flag at 0; unequal ones answer LENGTH_MISMATCH and leave
no job open. Nothing else changes. -/
def Obligations.MstartOpensOrRejects : Prop :=
  ∀ (a b : Word) (s : State),
    decode (assemble 0x20 a b) = .ok (.mstart a b) ∧
    (a = b → exec (.mstart a b) s = .next { s with
      m := { state := .active, len := a, count := 0, sd := 0, dNan := false, dInf := false,
             o := { s1 := 0, s2 := 0, nan := false, pinf := false, ninf := false },
             c := { s1 := 0, s2 := 0, nan := false, pinf := false, ninf := false } }
      responses := s.responses ++ [⟨.ok, 0⟩] }) ∧
    (a ≠ b → exec (.mstart a b) s = .next { s with
      m := { s.m with state := .idle }
      responses := s.responses ++ [⟨.error .lengthMismatch, 0⟩] })

/-- R141: the command's word; what MPUSH does to every element of unit M where the job takes another pair, and PROTOCOL with the state
unchanged where it does not. -/
def Obligations.MpushAccumulatesOrRefuses : Prop :=
  ∀ (o c : Word) (s : State),
    decode (assemble 0x21 o c) = .ok (.mpush o c) ∧
    (s.m.state = .active ∧ s.m.count ≠ s.m.len → ∃ t, exec (.mpush o c) s = .next t ∧
      t.m.state = .active ∧ t.m.len = s.m.len ∧ t.m.count = s.m.count + 1 ∧
      t.m.o.s1 = (if IsFinite o then s.m.o.s1 + intOf o else s.m.o.s1) ∧
      (t.m.o.s2 : Int) = (if IsFinite o then s.m.o.s2 + intOf o * intOf o else s.m.o.s2) ∧
      t.m.o.nan = (s.m.o.nan || decide (IsNan o)) ∧
      t.m.o.pinf = (s.m.o.pinf || decide (o = 0x7F800000)) ∧
      t.m.o.ninf = (s.m.o.ninf || decide (o = 0xFF800000)) ∧
      t.m.c.s1 = (if IsFinite c then s.m.c.s1 + intOf c else s.m.c.s1) ∧
      (t.m.c.s2 : Int) = (if IsFinite c then s.m.c.s2 + intOf c * intOf c else s.m.c.s2) ∧
      t.m.c.nan = (s.m.c.nan || decide (IsNan c)) ∧
      t.m.c.pinf = (s.m.c.pinf || decide (c = 0x7F800000)) ∧
      t.m.c.ninf = (s.m.c.ninf || decide (c = 0xFF800000)) ∧
      (t.m.sd : Int) = (if IsFinite o ∧ IsFinite c then s.m.sd + (intOf o - intOf c) * (intOf o - intOf c)
        else s.m.sd) ∧
      t.m.dNan = (s.m.dNan || decide (IsNan o ∨ IsNan c ∨ (o = c ∧ IsInf o))) ∧
      t.m.dInf = (s.m.dInf || decide (¬ (IsNan o ∨ IsNan c ∨ (o = c ∧ IsInf o)) ∧ (IsInf o ∨ IsInf c))) ∧
      t.c = s.c ∧ t.pending = s.pending ∧ t.freeIndex = s.freeIndex ∧
      t.responses = s.responses ++ [⟨.ok, 0⟩]) ∧
    (s.m.state = .idle ∨ s.m.count = s.m.len → exec (.mpush o c) s = .next { s with
      responses := s.responses ++ [⟨.error .protocol, 0⟩] })

/-- R30, R31, R32, R35: a job that holds the sums and flags of some pairs, fewer than its length, holds after MPUSH
those of one pair more; a job just opened holds those of none. -/
def Obligations.JobHoldsTheSumsOfItsPairs : Prop :=
  (∀ (len : Word) (s : State), ∃ t, exec (.mstart len len) s = .next t ∧ t.m = jobOf len []) ∧
  (∀ (len : Word) (ps : List (Word × Word)) (o c : Word) (s : State),
    s.m = jobOf len ps → ps.length < len.toNat →
    ∃ t, exec (.mpush o c) s = .next t ∧ t.m = jobOf len (ps ++ [(o, c)]))

/-- R142: the command's word; MEND is accepted in every state, leaves no job open, and writes nothing else. -/
def Obligations.MendClosesTheJob : Prop :=
  decode (assemble 0x23 0 0) = .ok .mend ∧ ∀ s : State,
    exec .mend s = .next { s with
      m := { s.m with state := .idle }, responses := s.responses ++ [⟨.ok, 0⟩] } ∧
    (s.m.state = .idle → exec .mend s = .next { s with responses := s.responses ++ [⟨.ok, 0⟩] })

/-- R143: the seven words, by `sel`; each form answers its result in a complete job and PROTOCOL in any other state, and writes no
state. -/
def Obligations.MreadAnswersItsResult : Prop :=
  (∀ sel < 7, (decode (assemble 0x22 0 (BitVec.ofNat 32 sel))).toOption = allReads[sel]?) ∧ ∀ s : State,
    (s.m.state = .active ∧ s.m.count = s.m.len →
      exec .mreadMse s = .next { s with responses := s.responses ++ [⟨.ok, s.m.mse⟩] } ∧
      exec .mreadMeanO s = .next { s with responses := s.responses ++ [⟨.ok, s.m.o.mean s.m.n⟩] } ∧
      exec .mreadMeanC s = .next { s with responses := s.responses ++ [⟨.ok, s.m.c.mean s.m.n⟩] } ∧
      exec .mreadVarO s = .next { s with responses := s.responses ++ [⟨.ok, s.m.o.var s.m.n⟩] } ∧
      exec .mreadVarC s = .next { s with responses := s.responses ++ [⟨.ok, s.m.c.var s.m.n⟩] } ∧
      exec .mreadStdO s = .next { s with responses := s.responses ++ [⟨.ok, s.m.o.std s.m.n⟩] } ∧
      exec .mreadStdC s = .next { s with responses := s.responses ++ [⟨.ok, s.m.c.std s.m.n⟩] }) ∧
    (s.m.state = .idle ∨ s.m.count ≠ s.m.len →
      ∀ i ∈ allReads, exec i s = .next { s with responses := s.responses ++ [⟨.error .protocol, 0⟩] })

/-- R144: the result functions of a complete job of length N ≥ 1, flags first. -/
def Obligations.ResultFunctionsOfAJob : Prop :=
  ∀ (m : UnitM) (d : Side) (n : Nat), m.len ≠ 0 → n ≠ 0 →
    (m.dNan = true → m.mse = 0x7FF8000000000000) ∧
    (m.dNan = false → m.dInf = true → m.mse = 0x7FF0000000000000) ∧
    (m.dNan = false → m.dInf = false → m.mse = rn64 m.sd (m.len.toNat * 2 ^ 298)) ∧
    (d.nan = true ∨ (d.pinf = true ∧ d.ninf = true) → d.mean n = 0x7FF8000000000000) ∧
    (d.nan = false → d.pinf = true → d.ninf = false → d.mean n = 0x7FF0000000000000) ∧
    (d.nan = false → d.pinf = false → d.ninf = true → d.mean n = 0xFFF0000000000000) ∧
    (d.nan = false → d.pinf = false → d.ninf = false → d.mean n = rn64 d.s1 (n * 2 ^ 149)) ∧
    (d.nan = true ∨ d.pinf = true ∨ d.ninf = true →
      d.var n = 0x7FF8000000000000 ∧ d.std n = 0x7FF8000000000000) ∧
    (d.nan = false → d.pinf = false → d.ninf = false →
      d.var n = rn64 (n * d.s2 - d.s1 * d.s1) (n * n * 2 ^ 298) ∧
      d.std n = rn64Sqrt (n * d.s2 - d.s1 * d.s1) (n * n * 2 ^ 298))

/-- R145: in a job of length 0 all seven forms answer `QNAN64`. -/
def Obligations.EmptyJobAnswersQuietNan : Prop :=
  ∀ s : State, s.m.state = .active → s.m.len = 0 → s.m.count = 0 →
    ∀ i ∈ allReads, exec i s = .next { s with responses := s.responses ++ [⟨.ok, 0x7FF8000000000000⟩] }

/-- R147, R152: the MSE of a complete all-finite job is the exact mean squared error of its pairs, rounded once to
binary64. -/
def Obligations.MseIsTheExactMeanRoundedOnce : Prop :=
  ∀ (len : Word) (ps : List (Word × Word)), len ≠ 0 → ps.length = len.toNat →
    AllFinite (ps.map (·.1)) → AllFinite (ps.map (·.2)) →
    RoundsTo (jobOf len ps).mse (mseOf ps : ℚ)

/-- R147, R153, R154: the two means of a complete all-finite job are the exact means, rounded once to binary64. -/
def Obligations.MeanIsTheExactMeanRoundedOnce : Prop :=
  ∀ (len : Word) (ps : List (Word × Word)), len ≠ 0 → ps.length = len.toNat →
    (AllFinite (ps.map (·.1)) →
      RoundsTo ((jobOf len ps).o.mean (jobOf len ps).n) (meanOf (ps.map fun p => valOf p.1) : ℚ)) ∧
    (AllFinite (ps.map (·.2)) →
      RoundsTo ((jobOf len ps).c.mean (jobOf len ps).n) (meanOf (ps.map fun p => valOf p.2) : ℚ))

/-- R147, R155, R156: the two variances of a complete all-finite job are the exact population variances by their
two-pass definition, rounded once to binary64. -/
def Obligations.VarianceIsExactRoundedOnce : Prop :=
  ∀ (len : Word) (ps : List (Word × Word)), len ≠ 0 → ps.length = len.toNat →
    (AllFinite (ps.map (·.1)) →
      RoundsTo ((jobOf len ps).o.var (jobOf len ps).n) (varianceOf (ps.map fun p => valOf p.1) : ℚ)) ∧
    (AllFinite (ps.map (·.2)) →
      RoundsTo ((jobOf len ps).c.var (jobOf len ps).n) (varianceOf (ps.map fun p => valOf p.2) : ℚ))

/-- R147, R157, R158: the two standard deviations of a complete all-finite job are the real square roots of the exact
variances, rounded once to binary64. -/
def Obligations.StdDevIsExactRootRoundedOnce : Prop :=
  ∀ (len : Word) (ps : List (Word × Word)), len ≠ 0 → ps.length = len.toNat →
    (AllFinite (ps.map (·.1)) →
      RoundsTo ((jobOf len ps).o.std (jobOf len ps).n) (Real.sqrt (varianceOf (ps.map fun p => valOf p.1) : ℚ))) ∧
    (AllFinite (ps.map (·.2)) →
      RoundsTo ((jobOf len ps).c.std (jobOf len ps).n) (Real.sqrt (varianceOf (ps.map fun p => valOf p.2) : ℚ)))

/-- R148: the exact numbers a complete all-finite job hands to the rounding functions are 0 or inside the bounds of the
rule's table, which lie inside the normal range of binary64; so a result is +0 where its exact value is 0 and a normal
pattern where it is not. -/
def Obligations.RoundingArgumentsInRange : Prop :=
  ∀ (len : Word) (ps : List (Word × Word)), len ≠ 0 → ps.length = len.toNat →
    AllFinite (ps.map (·.1)) → AllFinite (ps.map (·.2)) →
    (mseOf ps = 0 ∧ (jobOf len ps).mse = zero64 ∨
      2 ^ (-330 : Int) < mseOf ps ∧ mseOf ps < 2 ^ 258 ∧ IsNormal64 (jobOf len ps).mse) ∧
    ∀ (xs : List Word) (d : Side),
      (xs = ps.map (·.1) ∧ d = (jobOf len ps).o) ∨ (xs = ps.map (·.2) ∧ d = (jobOf len ps).c) →
      (meanOf (xs.map valOf) = 0 ∧ d.mean len.toNat = zero64 ∨
        2 ^ (-181 : Int) < |meanOf (xs.map valOf)| ∧ |meanOf (xs.map valOf)| < 2 ^ 128 ∧
          IsNormal64 (d.mean len.toNat)) ∧
      (varianceOf (xs.map valOf) = 0 ∧ d.var len.toNat = zero64 ∨
        2 ^ (-362 : Int) < varianceOf (xs.map valOf) ∧ varianceOf (xs.map valOf) < 2 ^ 256 ∧
          IsNormal64 (d.var len.toNat)) ∧
      (Real.sqrt (varianceOf (xs.map valOf) : ℚ) = 0 ∧ d.std len.toNat = zero64 ∨
        2 ^ (-181 : Int) < Real.sqrt (varianceOf (xs.map valOf) : ℚ) ∧
          Real.sqrt (varianceOf (xs.map valOf) : ℚ) < 2 ^ 128 ∧ IsNormal64 (d.std len.toNat))

/-- R144: `N × S2_X − S1_X^2` is never negative, "by the Cauchy–Schwarz inequality", whatever words were pushed. -/
def Obligations.VarianceNumeratorIsNonnegative : Prop :=
  ∀ (xs : List Word) (n : Nat), xs.length ≤ n → 0 ≤ (sideOf xs).varNum n

/-- R144: how non-finite words reach the results of a complete job. -/
def Obligations.NonFiniteWordsPropagate : Prop :=
  ∀ (len : Word) (ps : List (Word × Word)), len ≠ 0 → ps.length = len.toNat →
    ((∃ p ∈ ps, IsNan p.1 ∨ IsNan p.2 ∨ (p.1 = p.2 ∧ IsInf p.1)) → (jobOf len ps).mse = qnan64) ∧
    ((∀ p ∈ ps, ¬ (IsNan p.1 ∨ IsNan p.2 ∨ (p.1 = p.2 ∧ IsInf p.1))) → (∃ p ∈ ps, IsInf p.1 ∨ IsInf p.2) →
      (jobOf len ps).mse = pinf64) ∧
    ∀ (xs : List Word) (d : Side), (xs = ps.map (·.1) ∧ d = (jobOf len ps).o) ∨ (xs = ps.map (·.2) ∧ d = (jobOf len ps).c) →
      ((∃ x ∈ xs, IsNan x) ∨ (pinf32 ∈ xs ∧ ninf32 ∈ xs) → d.mean (jobOf len ps).n = qnan64) ∧
      ((∀ x ∈ xs, ¬ IsNan x) → pinf32 ∈ xs → ninf32 ∉ xs → d.mean (jobOf len ps).n = pinf64) ∧
      ((∀ x ∈ xs, ¬ IsNan x) → ninf32 ∈ xs → pinf32 ∉ xs → d.mean (jobOf len ps).n = ninf64) ∧
      ((∃ x ∈ xs, ¬ IsFinite x) → d.var (jobOf len ps).n = qnan64 ∧ d.std (jobOf len ps).n = qnan64)

/-- R151: the state after pushing a set of pairs does not depend on their order, from any state of unit M. -/
def Obligations.PairOrderDoesNotMatter : Prop :=
  ∀ (m : UnitM) (ps qs : List (Word × Word)), ps.Perm qs →
    ps.foldl (fun m p => m.push p.1 p.2) m = qs.foldl (fun m p => m.push p.1 p.2) m

/-- R149 items 1 and 5: a buffer against itself: the MSE is +0 for a non-empty all-finite buffer and `QNAN64` for any
other, and the two sides agree. -/
def Obligations.MseOfABufferAgainstItself : Prop :=
  ∀ (len : Word) (xs : List Word), xs.length = len.toNat →
    (len ≠ 0 → AllFinite xs → (jobOf len (xs.zip xs)).mse = zero64) ∧
    (len = 0 ∨ ¬ AllFinite xs → (jobOf len (xs.zip xs)).mse = qnan64) ∧
    (jobOf len (xs.zip xs)).o = (jobOf len (xs.zip xs)).c

/-- R149 item 2: a larger k gives no smaller MSE against the original, as unsigned patterns and as numbers. -/
def Obligations.MseGrowsWithBitsToZero : Prop :=
  ∀ (len : Word) (xs : List Word) (j k : BitVec 5), len ≠ 0 → xs.length = len.toNat → AllFinite xs →
    j.toNat < k.toNat →
    (jobOf len (xs.zip (xs.map (· &&& maskOf j)))).mse.toNat ≤
      (jobOf len (xs.zip (xs.map (· &&& maskOf k)))).mse.toNat ∧
    val64 (jobOf len (xs.zip (xs.map (· &&& maskOf j)))).mse ≤
      val64 (jobOf len (xs.zip (xs.map (· &&& maskOf k)))).mse

/-- R149 item 3: a constant buffer of a finite word has variance and standard deviation +0 and, exactly, the word's
value as its mean; of a non-finite word, `QNAN64` for both. -/
def Obligations.ConstantBufferHasNoSpread : Prop :=
  ∀ (w : Word) (n : Nat), 0 < n → n < 2 ^ 32 →
    (IsFinite w → (sideOf (List.replicate n w)).var n = zero64 ∧ (sideOf (List.replicate n w)).std n = zero64 ∧
      val64 ((sideOf (List.replicate n w)).mean n) = valOf w) ∧
    (¬ IsFinite w → (sideOf (List.replicate n w)).var n = qnan64 ∧ (sideOf (List.replicate n w)).std n = qnan64)

/-- R149 item 4: MSE, VAR and STD payloads are never negative and never -0; the mean of an all-finite buffer lies
between its smallest and its largest element. -/
def Obligations.ResultSignsAndMeanBounds : Prop :=
  ∀ (len : Word) (ps : List (Word × Word)), ps.length = len.toNat →
    sign64 (jobOf len ps).mse = false ∧
    ∀ (xs : List Word) (d : Side), (xs = ps.map (·.1) ∧ d = (jobOf len ps).o) ∨ (xs = ps.map (·.2) ∧ d = (jobOf len ps).c) →
      sign64 (d.var (jobOf len ps).n) = false ∧ sign64 (d.std (jobOf len ps).n) = false ∧
      (len ≠ 0 → AllFinite xs → ∃ a ∈ xs, ∃ b ∈ xs,
        valOf a ≤ val64 (d.mean (jobOf len ps).n) ∧ val64 (d.mean (jobOf len ps).n) ≤ valOf b)

/-- R33: the widths the rule gives are enough for every accumulator of every job. -/
def Obligations.AccumulatorsFitTheirWidths : Prop :=
  ∀ (len : Word) (ps : List (Word × Word)), ps.length ≤ len.toNat →
    (jobOf len ps).sd < 2 ^ 588 ∧
    (jobOf len ps).o.s1.natAbs < 2 ^ 309 ∧ (jobOf len ps).o.s2 < 2 ^ 586 ∧
    (jobOf len ps).c.s1.natAbs < 2 ^ 309 ∧ (jobOf len ps).c.s2 < 2 ^ 586

/-- R150, R80: from any state, the host's METRICS answers LENGTH_MISMATCH for buffers of unequal lengths and otherwise
the seven results of the job of their pairs; it leaves unit C as it was and no job open. U10: a buffer of 2^32 words or more is refused (before the
lengths are compared: the model's choice, assumption log 17). -/
def Obligations.MetricsReportsTheJobOfThePairs : Prop :=
  (∀ (s : State) (original compressed : List Word),
    ¬ (original.length < 2 ^ 32 ∧ compressed.length < 2 ^ 32) → s.metrics original compressed = none) ∧
  ∀ (s : State) (original compressed : List Word), original.length < 2 ^ 32 → compressed.length < 2 ^ 32 →
    ∃ t, t.c = s.c ∧ t.m.state = .idle ∧
      (original.length ≠ compressed.length →
        s.metrics original compressed = some (t, .error .lengthMismatch)) ∧
      (original.length = compressed.length →
        ∀ m, m = jobOf (BitVec.ofNat 32 original.length) (original.zip compressed) →
        s.metrics original compressed = some (t, .ok (some
          { mse := m.mse, mean := (m.o.mean m.n, m.c.mean m.n), variance := (m.o.var m.n, m.c.var m.n),
            stdDev := (m.o.std m.n, m.c.std m.n) })))

/-! Numerics (spec/42_numerics.md). -/

/-- R174: `RN64` rounds a rational of its range to the nearest binary64, ties to even. -/
def Obligations.Rn64IsNearestTiesToEven : Prop :=
  ∀ (num : Int) (den : Nat), 0 < den → num = 0 ∨ InRange64 num den → RoundsTo (rn64 num den) ((num : ℝ) / den)

/-- R175: `RN64SQRT` is the binary64 nearest to the real square root of a rational of its range, ties to even. -/
def Obligations.Rn64SqrtIsNearestTiesToEven : Prop :=
  ∀ (num : Int) (den : Nat), 0 < den → num = 0 ∨ InRangeSqrt64 num den →
    RoundsTo (rn64Sqrt num den) (Real.sqrt ((num : ℝ) / den))

/-- R174, R175: the worked examples of the two rules. -/
def Obligations.RoundingWorkedExamples : Prop :=
  rn64 1 10 = 0x3FB999999999999A ∧ rn64 1 3 = 0x3FD5555555555555 ∧ rn64 1 1 = 0x3FF0000000000000 ∧
  rn64 (-1) 2 = 0xBFE0000000000000 ∧ rn64 1 (2 ^ 298) = 0x2D50000000000000 ∧
  rn64Sqrt 4 1 = 0x4000000000000000 ∧ rn64Sqrt 2 1 = 0x3FF6A09E667F3BCD ∧ rn64Sqrt 1 4 = 0x3FE0000000000000

/-- R172: the bounds and the order of `mag` over the finite words, and the bound by the unbiased exponent. -/
def Obligations.MagnitudeOrderAndBounds : Prop :=
  (∀ w : Word, IsFinite w → magOf w ≤ (2 ^ 24 - 1) * 2 ^ 253 ∧ magOf w < 2 ^ 277 ∧
    (IsZero w → intOf w = 0) ∧ |valOf w| < 2 ^ (unbiasedOf w + 1)) ∧
  (∀ a b : Word, IsFinite a → IsFinite b →
    ((a.extractLsb' 0 31).toNat ≤ (b.extractLsb' 0 31).toNat ↔ magOf a ≤ magOf b))

/-- R171: every word is in exactly one of the six classes, and is finite exactly when it is a zero, a subnormal or a
normal. -/
def Obligations.WordClassesArePartition : Prop :=
  ∀ w : Word,
    ([decide (IsZero w), decide (IsSubnormal w), decide (IsNormal w), decide (w = 0x7F800000),
      decide (w = 0xFF800000), decide (IsNan w)].count true = 1) ∧
    (IsFinite w ↔ IsZero w ∨ IsSubnormal w ∨ IsNormal w)

/-! The state, its invariants and its errors (spec/10_state.md, spec/60_exceptions.md). -/

/-- R34 items 1 to 3: from every state that meets the invariants, a step gives a state that meets them. -/
def Obligations.StepKeepsTheInvariants : Prop :=
  ∀ s t : State, s.Inv → step s = .next t → t.Inv

/-- R34 items 1 to 3 hold at reset. -/
def Obligations.ResetMeetsTheInvariants : Prop := State.reset.Inv

/-- R34 item 4: two states that differ at most in the data of units with no open job step to two such states, with the
same responses: no response ever depends on an unspecified value. -/
def Obligations.UnspecifiedDataIsUnobservable : Prop :=
  ∀ s t s' : State, s.SameView t → step s = .next s' → ∃ t', step t = .next t' ∧ s'.SameView t'

/-- R34 item 4 over whole runs: whatever the unspecified data, the same events get the same responses. -/
def Obligations.RunsDoNotSeeUnspecifiedData : Prop :=
  ∀ (n : Nat) (s t : State), s.SameView t →
    ∃ s' t', Sys2Proof.core.run n s = .next s' ∧ Sys2Proof.core.run n t = .next t' ∧ s'.responses = t'.responses

/-- R20: a command of one unit writes nothing of the other, and neither its answer nor what it writes depends on the
other. -/
def Obligations.UnitsShareNoState : Prop :=
  ∀ (i : Instr) (s t : State), exec i s = .next t →
    (ofUnitC i = true → t.m = s.m ∧ ∀ m, exec i { s with m := m } = .next { t with m := m }) ∧
    (ofUnitC i = false → t.c = s.c ∧ ∀ c, exec i { s with c := c } = .next { t with c := c })

/-- R55: a command of unit C and one of unit M give each other's units and answers the same in either order. -/
def Obligations.CommandsOfTheTwoUnitsCommute : Prop :=
  ∀ (i j : Instr) (s : State), ofUnitC i = true → ofUnitC j = false →
    ∃ (a b ab ba : State) (p q : Response), exec i s = .next a ∧ exec j a = .next ab ∧
      exec j s = .next b ∧ exec i b = .next ba ∧ ab.c = ba.c ∧ ab.m = ba.m ∧
      ab.responses = s.responses ++ [p, q] ∧ ba.responses = s.responses ++ [q, p]

/-- R39: what each command writes of each element, and that it leaves the rest. -/
def Obligations.CommandsWriteOnlyTheirElements : Prop :=
  ∀ (i : Instr) (s t : State), exec i s = .next t →
    t.pending = s.pending ∧ t.freeIndex = s.freeIndex ∧
    match i with
    | .cstart k => t.m = s.m ∧ (k < 0 ∨ 31 < k → t.c.k = s.c.k ∧ t.c.mask = s.c.mask)
    | .cpush _ => t.c = s.c ∧ t.m = s.m
    | .cend => t.m = s.m ∧ t.c.k = s.c.k ∧ t.c.mask = s.c.mask
    | .mstart a b => t.c = s.c ∧ (a ≠ b → t.m = { s.m with state := t.m.state })
    | .mpush _ _ => t.c = s.c ∧ t.m.state = s.m.state ∧ t.m.len = s.m.len
    | .mend => t.c = s.c ∧ t.m = { s.m with state := t.m.state }
    | .mreadMse => t.c = s.c ∧ t.m = s.m
    | .mreadMeanO => t.c = s.c ∧ t.m = s.m
    | .mreadMeanC => t.c = s.c ∧ t.m = s.m
    | .mreadVarO => t.c = s.c ∧ t.m = s.m
    | .mreadVarC => t.c = s.c ∧ t.m = s.m
    | .mreadStdO => t.c = s.c ∧ t.m = s.m
    | .mreadStdC => t.c = s.c ∧ t.m = s.m

/-- R209: exactly what each error writes, of every element; its payload is 0. -/
def Obligations.ErrorsWriteOnlyTheirTable : Prop :=
  ∀ (s t : State) (w : CmdWord) (rest : List HostEvent) (r : Response) (e : ErrorCode),
    s.pending = .present w :: rest → step s = .next t → t.responses = s.responses ++ [r] → r.status = .error e →
    r.payload = 0 ∧ t.pending = rest ∧ t.freeIndex = s.freeIndex ∧
    match e with
    | .invalidParameter => t.c = { s.c with active := false } ∧ t.m = s.m
    | .lengthMismatch => t.c = s.c ∧ t.m = { s.m with state := .idle }
    | .protocol => t.c = s.c ∧ t.m = s.m
    | .illegalCommand => t.c = s.c ∧ t.m = s.m

/-- R205: after an error the two units are as after a CEND, as after a MEND, or as if the command had not been
presented, so no error leaves a trace in them. -/
def Obligations.ErrorsLeaveNoTrace : Prop :=
  ∀ (s t : State) (w : CmdWord) (rest : List HostEvent) (r : Response),
    s.pending = .present w :: rest → step s = .next t → t.responses = s.responses ++ [r] →
    (r.status = .error .invalidParameter → ∃ u, exec .cend s = .next u ∧ t.c = u.c ∧ t.m = u.m) ∧
    (r.status = .error .lengthMismatch → ∃ u, exec .mend s = .next u ∧ t.c = u.c ∧ t.m = u.m) ∧
    (r.status = .error .protocol ∨ r.status = .error .illegalCommand → t.c = s.c ∧ t.m = s.m)

/-- R230, R37: after reset, and after `rst` is asserted in any state with or without a command in flight, no job is open
in either unit, and no response is produced for what was in flight. -/
def Obligations.ResetLeavesNoJobOpen : Prop :=
  (State.reset.c.active = false ∧ State.reset.m.state = .idle) ∧
  (∀ (s : State) (f : Option CmdWord) (rest : List HostEvent), s.pending = .assertReset f :: rest →
    ∃ t, step s = .next t ∧ t.c.active = false ∧ t.m.state = .idle ∧ t.pending = rest ∧
      t.responses = s.responses)

/-- R54, R143: CPUSH and the MREAD forms change no unit, so the same command asked again gets the same answer. -/
def Obligations.ReadingTwiceAnswersTheSame : Prop :=
  ∀ (i : Instr) (s t : State) (r : Response), i ∈ allReads ∨ (∃ w, i = .cpush w) → Answers s i t r →
    t.c = s.c ∧ t.m = s.m ∧ ∃ u, Answers t i u r
end

