-- ==== Sys2Proof/Laws/Decode.lean ====
section
/-! SUPPORT. The fields of an assembled command word, and of any word (spec/30_encoding.md R71). -/

namespace Sys2Proof

variable (op : BitVec 8) (a b : Word)

@[simp] theorem fieldOp_assemble : fieldOp (assemble op a b) = op := by
  apply BitVec.eq_of_getLsbD_eq
  intro i hi
  simp only [fieldOp, assemble, BitVec.getLsbD_extractLsb', BitVec.getLsbD_append]
  simp [hi, show ¬ 64 + i < 32 by omega, show ¬ 64 + i - 32 < 32 by omega, show 64 + i - 32 - 32 = i by omega]

@[simp] theorem fieldA_assemble : fieldA (assemble op a b) = a := by
  apply BitVec.eq_of_getLsbD_eq
  intro i hi
  simp only [fieldA, assemble, BitVec.getLsbD_extractLsb', BitVec.getLsbD_append]
  simp [hi]

@[simp] theorem fieldB_assemble : fieldB (assemble op a b) = b := by
  apply BitVec.eq_of_getLsbD_eq
  intro i hi
  simp only [fieldB, assemble, BitVec.getLsbD_extractLsb', BitVec.getLsbD_append]
  simp [hi]

/-- A command word is its three fields (R71). -/
theorem assemble_fields (w : CmdWord) : assemble (fieldOp w) (fieldA w) (fieldB w) = w := by
  apply BitVec.eq_of_getLsbD_eq
  intro i hi
  simp only [assemble, fieldOp, fieldA, fieldB, BitVec.getLsbD_append, BitVec.getLsbD_extractLsb']
  by_cases h1 : i < 32
  · simp [h1]
  · by_cases h2 : i - 32 < 32
    · simp [h1, h2, show 32 + (i - 32) = i by omega]
    · simp [h1, h2, show 64 + (i - 32 - 32) = i by omega, show i - 32 - 32 < 8 by omega]

end Sys2Proof
end

