-- ==== Sys2Proof/Laws/HostCalls.lean ====
section
/-! SUPPORT. What the host writes into a command word (spec/40_bitmask_compressor.md R101, R108; assumption log 17). -/

namespace Sys2Proof.Machine

/-- The operand always fits the command word. -/
theorem cstartOperand_wellFormed (k : Int) : (Instr.cstart (cstartOperand k)).wellFormed = true := by
  have fits : -2 ^ 31 ≤ cstartOperand k ∧ cstartOperand k < 2 ^ 31 := by unfold cstartOperand; omega
  simpa [Instr.wellFormed] using fits

/-- A `k` that fits 32 bits is presented as it is. -/
theorem cstartOperand_of_fits {k : Int} (lo : -2 ^ 31 ≤ k) (hi : k < 2 ^ 31) : cstartOperand k = k := by
  unfold cstartOperand; omega

/-- What is presented is a legal `bits_to_zero` exactly where `k` is. -/
theorem cstartOperand_legal_iff (k : Int) :
    (0 ≤ cstartOperand k ∧ cstartOperand k ≤ 31) ↔ (0 ≤ k ∧ k ≤ 31) := by
  unfold cstartOperand; omega

theorem lengthsFit_iff (original compressed : List Word) :
    lengthsFit original compressed = true ↔ original.length < 2 ^ 32 ∧ compressed.length < 2 ^ 32 := by
  simp [lengthsFit]

end Sys2Proof.Machine
end

