-- ==== Sys2Proof/Laws/State.lean ====
section
/-! SUPPORT. One lemma per field per update of the state, so that no proof unfolds a record update. -/

namespace Sys2Proof.Machine

section Respond
variable (s : State) (st : Status) (p : Double)

@[simp] theorem State.respond_c : (s.respond st p).c = s.c := rfl
@[simp] theorem State.respond_m : (s.respond st p).m = s.m := rfl
@[simp] theorem State.respond_pending : (s.respond st p).pending = s.pending := rfl
@[simp] theorem State.respond_freeIndex : (s.respond st p).freeIndex = s.freeIndex := rfl
@[simp] theorem State.respond_responses : (s.respond st p).responses = s.responses ++ [⟨st, p⟩] := rfl

end Respond

section Raise
variable (s : State) (e : ErrorCode)

@[simp] theorem State.errorWrites_pending : (s.errorWrites e).pending = s.pending := by cases e <;> rfl
@[simp] theorem State.errorWrites_responses : (s.errorWrites e).responses = s.responses := by cases e <;> rfl
@[simp] theorem State.errorWrites_freeIndex : (s.errorWrites e).freeIndex = s.freeIndex := by cases e <;> rfl
@[simp] theorem State.raise_pending : (s.raise e).pending = s.pending := by cases e <;> rfl
@[simp] theorem State.raise_responses : (s.raise e).responses = s.responses ++ [⟨.error e, 0⟩] := by cases e <;> rfl
@[simp] theorem State.raise_freeIndex : (s.raise e).freeIndex = s.freeIndex := by cases e <;> rfl

@[simp] theorem State.raise_invalidParameter_c :
    (s.raise .invalidParameter).c = { s.c with active := false } := rfl
@[simp] theorem State.raise_invalidParameter_m : (s.raise .invalidParameter).m = s.m := rfl
@[simp] theorem State.raise_lengthMismatch_c : (s.raise .lengthMismatch).c = s.c := rfl
@[simp] theorem State.raise_lengthMismatch_m : (s.raise .lengthMismatch).m = { s.m with state := .idle } := rfl
@[simp] theorem State.raise_protocol_c : (s.raise .protocol).c = s.c := rfl
@[simp] theorem State.raise_protocol_m : (s.raise .protocol).m = s.m := rfl
@[simp] theorem State.raise_illegalCommand_c : (s.raise .illegalCommand).c = s.c := rfl
@[simp] theorem State.raise_illegalCommand_m : (s.raise .illegalCommand).m = s.m := rfl

end Raise

section UnitC
variable (c : UnitC) (k : BitVec 5)

@[simp] theorem UnitC.opened_active : (UnitC.opened k).active = true := rfl
@[simp] theorem UnitC.opened_k : (UnitC.opened k).k = k := rfl
@[simp] theorem UnitC.opened_mask : (UnitC.opened k).mask = maskOf k := rfl
@[simp] theorem UnitC.closed_active : c.closed.active = false := rfl
@[simp] theorem UnitC.closed_k : c.closed.k = c.k := rfl
@[simp] theorem UnitC.closed_mask : c.closed.mask = c.mask := rfl

end UnitC

section Job
variable (m : UnitM) (len : Word)

@[simp] theorem UnitM.opened_state : (UnitM.opened len).state = .active := rfl
@[simp] theorem UnitM.opened_len : (UnitM.opened len).len = len := rfl
@[simp] theorem UnitM.opened_count : (UnitM.opened len).count = 0 := rfl
@[simp] theorem UnitM.opened_sd : (UnitM.opened len).sd = 0 := rfl
@[simp] theorem UnitM.opened_dNan : (UnitM.opened len).dNan = false := rfl
@[simp] theorem UnitM.opened_dInf : (UnitM.opened len).dInf = false := rfl
@[simp] theorem UnitM.opened_o : (UnitM.opened len).o = Side.cleared := rfl
@[simp] theorem UnitM.opened_c : (UnitM.opened len).c = Side.cleared := rfl
@[simp] theorem UnitM.closed_state : m.closed.state = .idle := rfl
@[simp] theorem UnitM.closed_len : m.closed.len = m.len := rfl
@[simp] theorem UnitM.closed_count : m.closed.count = m.count := rfl
@[simp] theorem UnitM.closed_sd : m.closed.sd = m.sd := rfl
@[simp] theorem UnitM.closed_dNan : m.closed.dNan = m.dNan := rfl
@[simp] theorem UnitM.closed_dInf : m.closed.dInf = m.dInf := rfl
@[simp] theorem UnitM.closed_o : m.closed.o = m.o := rfl
@[simp] theorem UnitM.closed_c : m.closed.c = m.c := rfl

end Job

section Push
variable (m : UnitM) (d : Side) (o c x : Word)

@[simp] theorem UnitM.pushDiff_state : (m.pushDiff o c).state = m.state := by
  unfold UnitM.pushDiff; split <;> [rfl; split <;> rfl]
@[simp] theorem UnitM.pushDiff_len : (m.pushDiff o c).len = m.len := by
  unfold UnitM.pushDiff; split <;> [rfl; split <;> rfl]
@[simp] theorem UnitM.push_state : (m.push o c).state = m.state := UnitM.pushDiff_state m o c
@[simp] theorem UnitM.push_len : (m.push o c).len = m.len := UnitM.pushDiff_len m o c
@[simp] theorem UnitM.push_count : (m.push o c).count = m.count + 1 := rfl
@[simp] theorem UnitM.push_o : (m.push o c).o = m.o.push o := rfl
@[simp] theorem UnitM.push_c : (m.push o c).c = m.c.push c := rfl

/-- What the pair does to `SD`. -/
theorem UnitM.push_sd : (m.push o c).sd =
    m.sd + if PairIsNan o c ∨ PairIsInf o c then 0 else ((intOf o - intOf c) * (intOf o - intOf c)).toNat := by
  unfold UnitM.push UnitM.pushDiff
  by_cases hn : PairIsNan o c
  · rw [if_pos hn, if_pos (.inl hn), Nat.add_zero]
  · by_cases hi : PairIsInf o c
    · rw [if_neg hn, if_pos hi, if_pos (.inr hi), Nat.add_zero]
    · rw [if_neg hn, if_neg hi, if_neg (not_or.2 ⟨hn, hi⟩)]

/-- What the pair does to `D_NAN`. -/
theorem UnitM.push_dNan : (m.push o c).dNan = (m.dNan || decide (PairIsNan o c)) := by
  unfold UnitM.push UnitM.pushDiff
  by_cases hn : PairIsNan o c
  · rw [if_pos hn, decide_eq_true hn, Bool.or_true]
  · by_cases hi : PairIsInf o c
    · rw [if_neg hn, if_pos hi, decide_eq_false hn, Bool.or_false]
    · rw [if_neg hn, if_neg hi, decide_eq_false hn, Bool.or_false]

/-- What the pair does to `D_INF`. -/
theorem UnitM.push_dInf : (m.push o c).dInf = (m.dInf || decide (PairIsInf o c)) := by
  unfold UnitM.push UnitM.pushDiff
  by_cases hn : PairIsNan o c
  · rw [if_pos hn, decide_eq_false fun h : PairIsInf o c => h.1 hn, Bool.or_false]
  · by_cases hi : PairIsInf o c
    · rw [if_neg hn, if_pos hi, decide_eq_true hi, Bool.or_true]
    · rw [if_neg hn, if_neg hi, decide_eq_false hi, Bool.or_false]

/-- What a word does to `S1_X`. -/
theorem Side.push_s1 : (d.push x).s1 = d.s1 + if IsFinite x then intOf x else 0 := by
  unfold Side.push
  by_cases h : IsFinite x
  · rw [if_pos h, if_pos h]
  · rw [if_neg h, if_neg h, Int.add_zero]
    split <;> [rfl; split <;> rfl]

/-- What a word does to `S2_X`. -/
theorem Side.push_s2 : (d.push x).s2 = d.s2 + if IsFinite x then (intOf x * intOf x).toNat else 0 := by
  unfold Side.push
  by_cases h : IsFinite x
  · rw [if_pos h, if_pos h]
  · rw [if_neg h, if_neg h, Nat.add_zero]
    split <;> [rfl; split <;> rfl]

end Push

end Sys2Proof.Machine
end

