-- ==== Sys2Proof/Laws/Operands.lean ====
section
/-! SUPPORT. The classes of a binary32 word (spec/42_numerics.md R171), and what a word does to its side's flags
(spec/10_state.md R35). -/

namespace Sys2Proof.Machine

/-- A word is its three fields (R170). -/
theorem wordOfFields_of_fields (w : Word) : wordOfFields (signOf w) (expoOf w) (mantOf w) = w := by
  apply BitVec.eq_of_getLsbD_eq
  intro i hi
  simp only [wordOfFields, signOf, expoOf, mantOf, BitVec.getLsbD_append, BitVec.getLsbD_ofBool,
    BitVec.getLsbD_extractLsb']
  by_cases h1 : i < 23
  · simp [h1]
  · by_cases h2 : i - 23 < 8
    · simp [h1, h2]; congr 1; omega
    · have : i = 31 := by omega
      subst this; simp

/-- Two words with the same fields are the same word (R170). -/
theorem eq_of_fields {a b : Word} (hs : signOf a = signOf b) (he : expoOf a = expoOf b) (hf : mantOf a = mantOf b) :
    a = b := by
  rw [← wordOfFields_of_fields a, ← wordOfFields_of_fields b, hs, he, hf]

/-- The fields of +infinity (R171). -/
theorem pinf32_fields : signOf pinf32 = false ∧ expoOf pinf32 = 255 ∧ mantOf pinf32 = 0 := by decide

/-- The fields of -infinity (R171). -/
theorem ninf32_fields : signOf ninf32 = true ∧ expoOf ninf32 = 255 ∧ mantOf ninf32 = 0 := by decide

/-- A word is an infinity when `e = 255` and `f = 0` (R171). -/
theorem isInf_iff (w : Word) : IsInf w ↔ expoOf w = 255 ∧ mantOf w = 0 := by
  constructor
  · rintro (rfl | rfl)
    · exact pinf32_fields.2
    · exact ninf32_fields.2
  · rintro ⟨he, hf⟩
    cases hs : signOf w
    · exact .inl (eq_of_fields (hs.trans pinf32_fields.1.symm) (he.trans pinf32_fields.2.1.symm)
        (hf.trans pinf32_fields.2.2.symm))
    · exact .inr (eq_of_fields (hs.trans ninf32_fields.1.symm) (he.trans ninf32_fields.2.1.symm)
        (hf.trans ninf32_fields.2.2.symm))

/-- A word is finite exactly when it is neither a NaN nor an infinity (R171). -/
theorem isFinite_iff (w : Word) : IsFinite w ↔ ¬ IsNan w ∧ ¬ IsInf w := by
  rw [isInf_iff]; unfold IsFinite IsNan; tauto

/-- No infinity is a NaN (R171). -/
theorem not_isNan_of_isInf {w : Word} (h : IsInf w) : ¬ IsNan w :=
  fun hn => hn.2 ((isInf_iff w).1 h).2

/-- The pair's squared difference enters `SD` exactly when both words are finite (R30, R141). -/
theorem pair_finite_iff (o c : Word) : ¬ (PairIsNan o c ∨ PairIsInf o c) ↔ IsFinite o ∧ IsFinite c := by
  simp only [isFinite_iff]; unfold PairIsInf PairIsNan; tauto

variable (d : Side) (x : Word)

/-- What a word does to `X_NAN` (R35). -/
theorem Side.push_nan : (d.push x).nan = (d.nan || decide (IsNan x)) := by
  unfold Side.push
  split
  · next h => rw [decide_eq_false ((isFinite_iff x).1 h).1, Bool.or_false]
  · split
    · next h => rw [decide_eq_true h, Bool.or_true]
    · next h => rw [decide_eq_false h, Bool.or_false]; split <;> rfl

/-- What a word does to `X_PINF` (R35). -/
theorem Side.push_pinf : (d.push x).pinf = (d.pinf || decide (x = pinf32)) := by
  unfold Side.push
  split
  · next h =>
    have : x ≠ pinf32 := fun e => ((isFinite_iff x).1 h).2 (.inl e)
    simp [this]
  · split
    · next h =>
      have : x ≠ pinf32 := fun e => not_isNan_of_isInf (.inl e) h
      simp [this]
    · split
      · next h => simp [h]
      · next h => simp [h]

/-- What a word does to `X_NINF` (R35). -/
theorem Side.push_ninf : (d.push x).ninf = (d.ninf || decide (x = ninf32)) := by
  unfold Side.push
  split
  · next h =>
    have : x ≠ ninf32 := fun e => ((isFinite_iff x).1 h).2 (.inr e)
    simp [this]
  · next hf =>
    split
    · next h =>
      have : x ≠ ninf32 := fun e => not_isNan_of_isInf (.inr e) h
      simp [this]
    · next hn =>
      split
      · next h =>
        have : x ≠ ninf32 := by rw [h]; decide
        simp [this]
      · next hp =>
        have : x = ninf32 := by
          by_contra hne
          exact hf ((isFinite_iff x).2 ⟨hn, fun h => h.elim hp hne⟩)
        simp [this]

end Sys2Proof.Machine
end

