-- ==== Sys2Proof/Laws/Jobs.lean ====
section
/-! SUPPORT. The sums and flags a job's data ought to be, one word or pair more (spec/10_state.md R30 to R32, R35). -/

namespace Sys2Proof.Machine

section Sums
variable (xs ys : List Word) (ps qs : List (Word × Word)) (x o c : Word)

@[simp] theorem sumS1_nil : sumS1 [] = 0 := rfl
@[simp] theorem sumS2_nil : sumS2 [] = 0 := rfl
@[simp] theorem sumSd_nil : sumSd [] = 0 := rfl

theorem sumS1_append : sumS1 (xs ++ ys) = sumS1 xs + sumS1 ys := by simp [sumS1]
theorem sumS2_append : sumS2 (xs ++ ys) = sumS2 xs + sumS2 ys := by simp [sumS2]
theorem sumSd_append : sumSd (ps ++ qs) = sumSd ps + sumSd qs := by simp [sumSd]

theorem sumS1_singleton : sumS1 [x] = if IsFinite x then intOf x else 0 := by
  unfold sumS1; split <;> simp_all

/-- A square of an integer, as the natural number an accumulator holds. -/
theorem toNat_mul_self (a : Int) : (a * a).toNat = a.natAbs ^ 2 := by
  rw [← Int.natAbs_mul_self, Int.toNat_natCast, pow_two]

theorem sumS2_singleton : sumS2 [x] = if IsFinite x then (intOf x * intOf x).toNat else 0 := by
  rw [toNat_mul_self]; unfold sumS2; split <;> simp_all

theorem sumSd_singleton : sumSd [(o, c)] =
    if IsFinite o ∧ IsFinite c then ((intOf o - intOf c) * (intOf o - intOf c)).toNat else 0 := by
  rw [toNat_mul_self]; unfold sumSd; split <;> simp_all

end Sums

/-- Side data after one word more are the data the word is pushed on (R31, R32, R35). -/
theorem sideOf_append_singleton (xs : List Word) (x : Word) : sideOf (xs ++ [x]) = (sideOf xs).push x := by
  have ext : ∀ a b : Side, a.s1 = b.s1 → a.s2 = b.s2 → a.nan = b.nan → a.pinf = b.pinf → a.ninf = b.ninf →
      a = b := by
    intro a b h1 h2 h3 h4 h5; cases a; cases b; simp_all
  apply ext
  · rw [Side.push_s1, ← sumS1_singleton]; exact sumS1_append xs [x]
  · rw [Side.push_s2, ← sumS2_singleton]; exact sumS2_append xs [x]
  · rw [Side.push_nan]; simp only [sideOf, List.any_append, List.any_cons, List.any_nil, Bool.or_false]
  · rw [Side.push_pinf]; simp only [sideOf, List.any_append, List.any_cons, List.any_nil, Bool.or_false]
  · rw [Side.push_ninf]; simp only [sideOf, List.any_append, List.any_cons, List.any_nil, Bool.or_false]

end Sys2Proof.Machine
end

