-- ==== Sys2Proof/Laws/Numerics.lean ====
section
/-! SUPPORT. What the helpers of the two rounding functions compute (spec/42_numerics.md R174, R175). -/

namespace Sys2Proof.Machine

/-- `PowLe` says `2^e ≤ num / den` (R174). -/
theorem powLe_iff {num den : Nat} (hd : 0 < den) (e : Int) :
    PowLe e num den ↔ (2 : ℚ) ^ e ≤ (num : ℚ) / den := by
  have hd' : (0 : ℚ) < den := by exact_mod_cast hd
  have key : (2 : ℚ) ^ e = 2 ^ e.toNat / 2 ^ (-e).toNat := by
    rcases le_or_gt 0 e with h | h
    · have h0 : (-e).toNat = 0 := by omega
      rw [h0, pow_zero, div_one, ← zpow_natCast, Int.toNat_of_nonneg h]
    · have h0 : e.toNat = 0 := by omega
      rw [h0, pow_zero, one_div, ← zpow_natCast, Int.toNat_of_nonneg (by omega), zpow_neg, inv_inv]
  rw [key, div_le_div_iff₀ (by positivity) hd']
  unfold PowLe
  rw [mul_comm den, mul_comm num, mul_comm (num : ℚ)]
  rw [mul_comm (2 ^ (-e).toNat : ℚ), mul_comm (2 ^ (-e).toNat)]
  exact_mod_cast Iff.rfl

/-- `floorLog2` is the exponent of its ratio: `2^e ≤ num / den < 2^(e+1)` (R174). -/
theorem floorLog2_spec {num den : Nat} (hn : 0 < num) (hd : 0 < den) :
    (2 : ℚ) ^ floorLog2 num den ≤ (num : ℚ) / den ∧ (num : ℚ) / den < 2 ^ (floorLog2 num den + 1) := by
  have hd' : (0 : ℚ) < den := by exact_mod_cast hd
  have n1 : ((2 : ℚ) ^ num.log2) ≤ num := by exact_mod_cast Nat.log2_self_le hn.ne'
  have n2 : (num : ℚ) < 2 ^ (num.log2 + 1) := by exact_mod_cast Nat.lt_log2_self
  have d1 : ((2 : ℚ) ^ den.log2) ≤ den := by exact_mod_cast Nat.log2_self_le hd.ne'
  have d2 : (den : ℚ) < 2 ^ (den.log2 + 1) := by exact_mod_cast Nat.lt_log2_self
  have up : (num : ℚ) / den < 2 ^ ((num.log2 : Int) - den.log2 + 1) := by
    rw [show (num.log2 : Int) - den.log2 + 1 = ((num.log2 + 1 : ℕ) : Int) - (den.log2 : ℕ) by push_cast; ring,
      zpow_sub₀ (by norm_num), zpow_natCast, zpow_natCast]
    exact div_lt_div₀ n2 d1 (by positivity) (by positivity)
  have lo : (2 : ℚ) ^ ((num.log2 : Int) - den.log2 - 1) ≤ (num : ℚ) / den := by
    rw [show (num.log2 : Int) - den.log2 - 1 = ((num.log2 : ℕ) : Int) - ((den.log2 + 1 : ℕ) : Int) by
        push_cast; ring, zpow_sub₀ (by norm_num), zpow_natCast, zpow_natCast]
    exact div_le_div₀ (by positivity) n1 hd' d2.le
  unfold floorLog2
  simp only
  split
  · next h => exact ⟨(powLe_iff hd _).1 h, up⟩
  · next h =>
    refine ⟨lo, ?_⟩
    rw [powLe_iff hd, not_le] at h
    simpa using h

/-- The bit-by-bit search keeps `acc² ≤ n < (acc + 2^bits)²` and ends with the root. -/
theorem isqrtBits_spec (n : Nat) : ∀ bits acc : Nat, acc * acc ≤ n → n < (acc + 2 ^ bits) * (acc + 2 ^ bits) →
    isqrtBits n bits acc * isqrtBits n bits acc ≤ n ∧
      n < (isqrtBits n bits acc + 1) * (isqrtBits n bits acc + 1)
  | 0, acc, h1, h2 => by simpa [isqrtBits] using ⟨h1, h2⟩
  | bits + 1, acc, h1, h2 => by
    unfold isqrtBits
    split
    · next h =>
      refine isqrtBits_spec n bits _ h ?_
      rwa [add_assoc, ← two_mul, ← pow_succ']
    · next h => exact isqrtBits_spec n bits acc h1 (not_le.1 h)

/-- `isqrt n` is "the largest integer whose square is ≤ n" (R175). -/
theorem isqrt_spec (n : Nat) : isqrt n * isqrt n ≤ n ∧ n < (isqrt n + 1) * (isqrt n + 1) := by
  refine isqrtBits_spec n _ 0 (by simp) ?_
  rw [zero_add, ← pow_add]
  exact lt_of_lt_of_le Nat.lt_log2_self (Nat.pow_le_pow_right (by norm_num) (by omega))

/-- `isqrt` is the library's integer square root. -/
theorem isqrt_eq_sqrt (n : Nat) : isqrt n = Nat.sqrt n := by
  obtain ⟨h1, h2⟩ := isqrt_spec n
  exact le_antisymm (Nat.le_sqrt.2 h1) (Nat.lt_succ_iff.1 (Nat.sqrt_lt.2 h2))

/-- `roundHalfEven n d` is within half of `n / d`, and even where `n / d` is a tie (R174). -/
theorem roundHalfEven_spec {n d : Nat} (hd : 0 < d) :
    2 * n ≤ (2 * roundHalfEven n d + 1) * d ∧ 2 * roundHalfEven n d * d ≤ 2 * n + d ∧
      ((2 * n = (2 * roundHalfEven n d + 1) * d ∨ 2 * n + d = 2 * roundHalfEven n d * d) →
        roundHalfEven n d % 2 = 0) := by
  have hdm := Nat.div_add_mod n d
  have hlt := Nat.mod_lt n hd
  have hmul : d * (n / d) = n / d * d := Nat.mul_comm _ _
  unfold roundHalfEven
  split
  · next h =>
    have e1 : (2 * (n / d + 1) + 1) * d = 2 * (n / d * d) + 3 * d := by ring
    have e2 : 2 * (n / d + 1) * d = 2 * (n / d * d) + 2 * d := by ring
    rw [e1, e2]
    refine ⟨by omega, by omega, fun ht => ?_⟩
    rcases h with h | h <;> omega
  · next h =>
    have e1 : (2 * (n / d) + 1) * d = 2 * (n / d * d) + d := by ring
    have e2 : 2 * (n / d) * d = 2 * (n / d * d) := by ring
    rw [e1, e2]
    refine ⟨by omega, by omega, fun ht => ?_⟩
    by_contra hodd
    exact h (by omega)

/-- `roundSqrtHalfEven n d` is within half of `sqrt (n / d)`, said without the root, and even at a tie (R175). -/
theorem roundSqrtHalfEven_spec {n d : Nat} (hd : 0 < d) :
    4 * n ≤ (2 * roundSqrtHalfEven n d + 1) * (2 * roundSqrtHalfEven n d + 1) * d ∧
      (0 < roundSqrtHalfEven n d →
        (2 * roundSqrtHalfEven n d - 1) * (2 * roundSqrtHalfEven n d - 1) * d ≤ 4 * n) := by
  obtain ⟨h1, h2⟩ := isqrt_spec (n / d)
  have hlow : isqrt (n / d) * isqrt (n / d) * d ≤ n :=
    le_trans (Nat.mul_le_mul_right d h1) (Nat.div_mul_le_self n d)
  have hup : n < (isqrt (n / d) + 1) * (isqrt (n / d) + 1) * d :=
    (Nat.div_lt_iff_lt_mul hd).1 h2
  unfold roundSqrtHalfEven
  simp only
  generalize isqrt (n / d) = M at *
  split
  · next h =>
    constructor
    · nlinarith
    · intro _
      have : 2 * (M + 1) - 1 = 2 * M + 1 := by omega
      rw [this]
      have e : (2 * M + 1) * (2 * M + 1) * d = (4 * M * M + 4 * M + 1) * d := by ring
      rw [e]; omega
  · next h =>
    have e : (2 * M + 1) * (2 * M + 1) * d = (4 * M * M + 4 * M + 1) * d := by ring
    constructor
    · rw [e]; omega
    · intro hM
      obtain ⟨k, rfl⟩ : ∃ k, M = k + 1 := ⟨M - 1, by omega⟩
      have : 2 * (k + 1) - 1 = 2 * k + 1 := by omega
      rw [this]; nlinarith

end Sys2Proof.Machine
end

