-- ==== Sys2Proof/Laws/PerInstr.lean ====
section
/-! SUPPORT. Facts about every command as syntax, one lemma per constructor. -/

/-- The command's word lies in its row of spec/opcode_table.json (R81). -/
def Sys2Proof.Laws.OpcodeRow.Statement (i : Sys2Proof.Instr) : Prop :=
  ∃ r ∈ Sys2Proof.opcodeTable, r.mnemonic = i.mnemonic ∧ Sys2Proof.encode i &&& r.mask = r.pattern

namespace Sys2Proof.Laws

/-- A mask acts on each field of a command word. -/
theorem assemble_and (op op' : BitVec 8) (a a' b b' : Word) :
    assemble op a b &&& assemble op' a' b' = assemble (op &&& op') (a &&& a') (b &&& b') := by
  apply BitVec.eq_of_getLsbD_eq
  intro i _
  simp only [assemble, BitVec.getLsbD_and, BitVec.getLsbD_append]
  by_cases h1 : i < 32
  · simp [h1]
  · by_cases h2 : i - 32 < 32 <;> simp [h1, h2]

/-- The bits of a word with opcode `op`, field `A` zero and any `B`, under the mask of rows CSTART and CPUSH. -/
theorem assemble_and_opA (op : BitVec 8) (b : Word) :
    assemble op 0 b &&& 0xFFFFFFFFFF00000000 = assemble op 0 0 := by
  have : (0xFFFFFFFFFF00000000 : CmdWord) = assemble (BitVec.allOnes 8) (BitVec.allOnes 32) 0 := by decide
  rw [this, assemble_and, BitVec.and_allOnes, BitVec.and_allOnes]
  simp

/-- The bits of a word with opcode `op` and any `A` and `B`, under the mask of rows MSTART and MPUSH. -/
theorem assemble_and_op (op : BitVec 8) (a b : Word) :
    assemble op a b &&& 0xFF0000000000000000 = assemble op 0 0 := by
  have : (0xFF0000000000000000 : CmdWord) = assemble (BitVec.allOnes 8) 0 0 := by decide
  rw [this, assemble_and, BitVec.and_allOnes]
  simp

theorem OpcodeRow.cstart (k : Int) : OpcodeRow.Statement (.cstart k) :=
  ⟨⟨"CSTART", 0x100000000000000000, 0xFFFFFFFFFF00000000⟩, by decide, rfl,
    (assemble_and_opA 0x10 _).trans (by decide)⟩
theorem OpcodeRow.cpush (w : Word) : OpcodeRow.Statement (.cpush w) :=
  ⟨⟨"CPUSH", 0x110000000000000000, 0xFFFFFFFFFF00000000⟩, by decide, rfl,
    (assemble_and_opA 0x11 _).trans (by decide)⟩
theorem OpcodeRow.cend : OpcodeRow.Statement .cend := by unfold OpcodeRow.Statement; decide
theorem OpcodeRow.mstart (lenO lenC : Word) : OpcodeRow.Statement (.mstart lenO lenC) :=
  ⟨⟨"MSTART", 0x200000000000000000, 0xFF0000000000000000⟩, by decide, rfl,
    (assemble_and_op 0x20 _ _).trans (by decide)⟩
theorem OpcodeRow.mpush (o c : Word) : OpcodeRow.Statement (.mpush o c) :=
  ⟨⟨"MPUSH", 0x210000000000000000, 0xFF0000000000000000⟩, by decide, rfl,
    (assemble_and_op 0x21 _ _).trans (by decide)⟩
theorem OpcodeRow.mreadMse : OpcodeRow.Statement .mreadMse := by unfold OpcodeRow.Statement; decide
theorem OpcodeRow.mreadMeanO : OpcodeRow.Statement .mreadMeanO := by unfold OpcodeRow.Statement; decide
theorem OpcodeRow.mreadMeanC : OpcodeRow.Statement .mreadMeanC := by unfold OpcodeRow.Statement; decide
theorem OpcodeRow.mreadVarO : OpcodeRow.Statement .mreadVarO := by unfold OpcodeRow.Statement; decide
theorem OpcodeRow.mreadVarC : OpcodeRow.Statement .mreadVarC := by unfold OpcodeRow.Statement; decide
theorem OpcodeRow.mreadStdO : OpcodeRow.Statement .mreadStdO := by unfold OpcodeRow.Statement; decide
theorem OpcodeRow.mreadStdC : OpcodeRow.Statement .mreadStdC := by unfold OpcodeRow.Statement; decide
theorem OpcodeRow.mend : OpcodeRow.Statement .mend := by unfold OpcodeRow.Statement; decide

end Sys2Proof.Laws
end

