-- ==== Sys2Proof/Laws/Step.lean ====
section
/-! SUPPORT. What a command can do, and what a step can do, said once. -/

namespace Sys2Proof.Machine

/-- The two cases of every MREAD form (R143): the result, or PROTOCOL. -/
theorem State.readResult_cases (s : State) (r : Double) :
    (s.m.Complete ∧ s.readResult r = s.respond .ok r) ∨ (¬ s.m.Complete ∧ s.readResult r = s.raise .protocol) := by
  unfold State.readResult
  by_cases h : s.m.Complete
  · exact .inl ⟨h, if_pos h⟩
  · exact .inr ⟨h, if_neg h⟩

/-- Reading a result writes no unit and appends one response. -/
theorem State.readResult_frame (s : State) (r : Double) :
    (s.readResult r).c = s.c ∧ (s.readResult r).m = s.m ∧ (s.readResult r).pending = s.pending ∧
      (s.readResult r).freeIndex = s.freeIndex ∧
      ∃ a, (s.readResult r).responses = s.responses ++ [a] := by
  rcases s.readResult_cases r with ⟨-, h⟩ | ⟨-, h⟩ <;> rw [h] <;>
    exact ⟨rfl, rfl, rfl, rfl, _, rfl⟩

/-- Every command answers: a next state that leaves the host's own lists alone but for the one new response. -/
theorem exec_answers (i : Instr) (s : State) :
    ∃ t r, exec i s = .next t ∧ t.responses = s.responses ++ [r] ∧ t.pending = s.pending ∧
      t.freeIndex = s.freeIndex := by
  have read : ∀ p : Double, ∃ t r, (.next (s.readResult p) : Host.Outcome State Fault Refusal) = .next t ∧
      t.responses = s.responses ++ [r] ∧ t.pending = s.pending ∧ t.freeIndex = s.freeIndex := fun p =>
    let ⟨_, _, hp, hf, a, ha⟩ := s.readResult_frame p
    ⟨_, a, rfl, ha, hp, hf⟩
  have write : ∀ (c : UnitC) (m : UnitM) (st : Status) (p : Double), ∃ t r,
      (.next ({ s with c := c, m := m }.respond st p) : Host.Outcome State Fault Refusal) = .next t ∧
      t.responses = s.responses ++ [r] ∧ t.pending = s.pending ∧ t.freeIndex = s.freeIndex :=
    fun c m st p => ⟨_, ⟨st, p⟩, rfl, rfl, rfl, rfl⟩
  cases i with
  | cstart k =>
    show ∃ t r, execCstart k s = .next t ∧ _
    unfold execCstart
    split
    · exact write _ _ _ _
    · exact write { s.c with active := false } s.m _ _
  | cpush w =>
    show ∃ t r, execCpush w s = .next t ∧ _
    unfold execCpush
    split
    · exact write s.c s.m _ _
    · exact write s.c s.m _ _
  | cend => exact write _ _ _ _
  | mstart a b =>
    show ∃ t r, execMstart a b s = .next t ∧ _
    unfold execMstart
    split
    · exact write _ _ _ _
    · exact write s.c { s.m with state := .idle } _ _
  | mpush o c =>
    show ∃ t r, execMpush o c s = .next t ∧ _
    unfold execMpush
    split
    · exact write _ _ _ _
    · exact write s.c s.m _ _
  | mreadMse => exact read _
  | mreadMeanO => exact read _
  | mreadMeanC => exact read _
  | mreadVarO => exact read _
  | mreadVarC => exact read _
  | mreadStdO => exact read _
  | mreadStdC => exact read _
  | mend => exact write _ _ _ _

/-- What one step can do: hold, execute a legal command, refuse an illegal word, or reset. -/
theorem step_cases {s t : State} (h : step s = .next t) :
    (s.pending = [] ∧ t = s) ∨
    (∃ w rest i, s.pending = .present w :: rest ∧ decode w = .ok i ∧
      exec i { s with pending := rest } = .next t) ∨
    (∃ w rest e, s.pending = .present w :: rest ∧ decode w = .error e ∧
      t = { s with pending := rest }.raise .illegalCommand) ∨
    (∃ f rest, s.pending = .assertReset f :: rest ∧ t = { s with pending := rest }.applyReset f) := by
  unfold step State.fetch at h
  cases hp : s.pending with
  | nil => simp only [hp] at h; exact .inl ⟨rfl, (Host.Outcome.next.inj h).symm⟩
  | cons ev rest =>
    simp only [hp] at h
    cases ev with
    | present w =>
      simp only at h
      cases hd : decode w with
      | ok i => rw [hd] at h; exact .inr (.inl ⟨w, rest, i, rfl, hd, h⟩)
      | error e => rw [hd] at h; exact .inr (.inr (.inl ⟨w, rest, e, rfl, hd, (Host.Outcome.next.inj h).symm⟩))
    | assertReset f => exact .inr (.inr (.inr ⟨f, rest, rfl, (Host.Outcome.next.inj h).symm⟩))

end Sys2Proof.Machine
end

