-- ==== Sys2Proof/Tests/Slice0.lean ====
section
/-! SUPPORT. The model's own tests: the well-formedness smoke, words written out from spec/30_encoding.md, at most two
steps per command with values of spec/95_test_vectors.md, and a witness for each obligation that has hypotheses. -/

namespace Sys2Proof.Tests

open Sys2Proof.Machine

/-! Well-formedness: one ill-formed term per check, and the boundary values that pass. -/

theorem test_wellFormed_refuses_k_too_large : Instr.wellFormed (.cstart (2 ^ 31)) = false := by decide
theorem test_wellFormed_refuses_k_too_small : Instr.wellFormed (.cstart (-2 ^ 31 - 1)) = false := by decide
theorem test_wellFormed_accepts_k_ends :
    Instr.wellFormed (.cstart (2 ^ 31 - 1)) = true ∧ Instr.wellFormed (.cstart (-2 ^ 31)) = true := by decide

/-! Decoding: every constructor and every clause of R75, words of table V1. -/

theorem test_decode_cstart : decode 0x10_00000000_00000010 = .ok (.cstart 16) := by decide
theorem test_decode_cstart_negative : decode 0x10_00000000_80000000 = .ok (.cstart (-2147483648)) := by decide
theorem test_decode_cpush : decode 0x11_00000000_3DCCCCCD = .ok (.cpush 0x3DCCCCCD) := by decide
theorem test_decode_cend : decode 0x12_00000000_00000000 = .ok .cend := by decide
theorem test_decode_mstart : decode 0x20_0000000A_0000000B = .ok (.mstart 10 11) := by decide
theorem test_decode_mpush : decode 0x21_3DCCCCCD_3DCC0000 = .ok (.mpush 0x3DCCCCCD 0x3DCC0000) := by decide
theorem test_decode_mreadMse : decode 0x22_00000000_00000000 = .ok .mreadMse := by decide
theorem test_decode_mreadMeanO : decode 0x22_00000000_00000001 = .ok .mreadMeanO := by decide
theorem test_decode_mreadMeanC : decode 0x22_00000000_00000002 = .ok .mreadMeanC := by decide
theorem test_decode_mreadVarO : decode 0x22_00000000_00000003 = .ok .mreadVarO := by decide
theorem test_decode_mreadVarC : decode 0x22_00000000_00000004 = .ok .mreadVarC := by decide
theorem test_decode_mreadStdO : decode 0x22_00000000_00000005 = .ok .mreadStdO := by decide
theorem test_decode_mreadStdC : decode 0x22_00000000_00000006 = .ok .mreadStdC := by decide
theorem test_decode_mend : decode 0x23_00000000_00000000 = .ok .mend := by decide
theorem test_decode_unknown_opcodes :
    decode 0 = .error .unknownOpcode ∧ decode 0xFF_FFFFFFFF_FFFFFFFF = .error .unknownOpcode ∧
    decode 0x13_00000000_00000000 = .error .unknownOpcode ∧ decode 0x90_00000000_00000010 = .error .unknownOpcode := by
  decide
theorem test_decode_reserved_bits :
    decode 0x10_00000001_00000010 = .error .reservedNotZero ∧ decode 0x11_80000000_3F800000 = .error .reservedNotZero ∧
    decode 0x12_00000000_00000001 = .error .reservedNotZero ∧ decode 0x22_00000001_00000000 = .error .reservedNotZero ∧
    decode 0x23_00000000_80000000 = .error .reservedNotZero := by decide
theorem test_decode_mread_refusals :
    decode 0x22_00000000_00000008 = .error .mreadHighBits ∧ decode 0x22_00000000_80000000 = .error .mreadHighBits ∧
    decode 0x22_00000000_00000007 = .error .mreadSelSeven := by decide
theorem test_decodeTableWord : decodeTableWord 72 0x200000000300000003 = some (.mstart 3 3) := by decide

/-! One step on a small state. -/

/-- Unit C in a job with this `k`. -/
def inJobC (k : BitVec 5) : State := { State.reset with c := UnitC.opened k }

/-- Unit M in a job of this length after these pairs, pushed one by one. -/
def inJobM (len : Word) (ps : List (Word × Word)) : State :=
  { State.reset with m := ps.foldl (fun m p => m.push p.1 p.2) (UnitM.opened len) }

/-- What one step answers to this word, and the state after it. -/
def ask (s : State) (w : CmdWord) : Option (Response × State) :=
  match step { s with pending := [.present w] } with
  | .next t => t.responses.getLast?.map fun r => (r, t)
  | _ => none

/-- The answer alone. -/
def answer (s : State) (w : CmdWord) : Option Response := (ask s w).map (·.1)

/-- Job J of spec/41_fidelity_metrics.md. -/
def jobJ : State :=
  inJobM 3 [(0x3DCCCCCD, 0x3DCC0000), (0x3E4CCCCD, 0x3E4C0000), (0x3E99999A, 0x3E990000)]

/-- Jobs M9 and M10 of table V8: infinities. -/
def jobM9 : State := inJobM 2 [(0x7F800000, 0x7F000000), (0x3F800000, 0x3F000000)]
def jobM10 : State := inJobM 2 [(0x7F800000, 0xFF800000), (0xFF800000, 0x3F800000)]

/-- Job M16 of table V8, where rounding twice would be wrong. -/
def jobM16 : State :=
  inJobM 3 [(0x41200000, 0x41200000), (0x40100000, 0x40100000), (0x3DCCCCCD, 0x3DCCCCCD)]

theorem test_cstart_opens : (ask State.reset 0x10_00000000_0000001F).map (fun x => (x.1, x.2.c)) =
    some (⟨.ok, 0⟩, ⟨true, 31, 0x80000000⟩) := by decide +kernel
theorem test_cstart_48_rejected : (ask (inJobC 16) 0x10_00000000_00000030).map (fun x => (x.1, x.2.c.active)) =
    some (⟨.error .invalidParameter, 0⟩, false) := by decide +kernel
theorem test_cpush_masks : answer (inJobC 16) 0x11_00000000_3DCCCCCD = some ⟨.ok, 0x3DCC0000⟩ := by decide +kernel
theorem test_cpush_no_job : answer State.reset 0x11_00000000_3F800000 = some ⟨.error .protocol, 0⟩ := by
  decide +kernel
theorem test_cend_closes : (ask (inJobC 16) 0x12_00000000_00000000).map (fun x => (x.1, x.2.c.active)) =
    some (⟨.ok, 0⟩, false) := by decide +kernel
theorem test_mstart_restarts : (ask jobJ 0x20_00000002_00000002).map (fun x => (x.1, x.2.m)) =
    some (⟨.ok, 0⟩, UnitM.opened 2) := by decide +kernel
theorem test_mstart_mismatch : (ask jobJ 0x20_0000000A_0000000B).map (fun x => (x.1, x.2.m.state)) =
    some (⟨.error .lengthMismatch, 0⟩, .idle) := by decide +kernel
/-- Table V7, third row. -/
theorem test_mpush_accumulates :
    (ask (inJobM 3 [(0x3DCCCCCD, 0x3DCC0000), (0x3E4CCCCD, 0x3E4C0000)]) 0x21_3E99999A_3E990000).map
      (fun x => (x.1, x.2.m.sd, x.2.m.o.s1, x.2.m.c.s2)) =
    some (⟨.ok, 0⟩, 38483515149 * 2 ^ 244, 80530639 * 2 ^ 122, 18207 * 2 ^ 281) := by decide +kernel
/-- Program P4, line 5: a NaN against +infinity. -/
theorem test_mpush_flags :
    (ask (inJobM 2 [(0x3FFFFFFF, 0x3F800000)]) 0x21_7FC00000_7F800000).map
      (fun x => (x.2.m.o.nan, x.2.m.c.pinf, x.2.m.dNan, x.2.m.dInf, x.2.m.sd)) =
    some (true, true, true, false, (2 ^ 23 - 1) ^ 2 * 2 ^ 252) := by decide +kernel
theorem test_mreadMse : answer jobJ 0x22_00000000_00000000 = some ⟨.ok, 0x3EA7E4CA3D780000⟩ := by decide +kernel
theorem test_mreadMse_infinite : answer jobM9 0x22_00000000_00000000 = some ⟨.ok, 0x7FF0000000000000⟩ := by
  decide +kernel
theorem test_mreadMeanO : answer jobJ 0x22_00000000_00000001 = some ⟨.ok, 0x3FC99999A5555555⟩ := by decide +kernel
theorem test_mreadMeanO_both_infinities : answer jobM10 0x22_00000000_00000001 = some ⟨.ok, 0x7FF8000000000000⟩ := by
  decide +kernel
theorem test_mreadMeanC : answer jobJ 0x22_00000000_00000002 = some ⟨.ok, 0x3FC9800000000000⟩ := by decide +kernel
theorem test_mreadMeanC_infinite : answer jobM10 0x22_00000000_00000002 = some ⟨.ok, 0xFFF0000000000000⟩ := by
  decide +kernel
theorem test_mreadVarO : answer jobJ 0x22_00000000_00000003 = some ⟨.ok, 0x3F7B4E81E4B17E64⟩ := by decide +kernel
theorem test_mreadVarO_infinite : answer jobM9 0x22_00000000_00000003 = some ⟨.ok, 0x7FF8000000000000⟩ := by
  decide +kernel
theorem test_mreadVarC : answer jobJ 0x22_00000000_00000004 = some ⟨.ok, 0x3F7B180000000000⟩ := by decide +kernel
theorem test_mreadVarC_other_side_infinite : answer jobM9 0x22_00000000_00000004 = some ⟨.ok, 0x4FB0000000000000⟩ := by
  decide +kernel
theorem test_mreadStdO : answer jobJ 0x22_00000000_00000005 = some ⟨.ok, 0x3FB4E6FE05870E68⟩ := by decide +kernel
theorem test_mreadStdO_rounds_once : answer jobM16 0x22_00000000_00000005 = some ⟨.ok, 0x401101C5F299ABD6⟩ := by
  decide +kernel
theorem test_mreadStdC : answer jobJ 0x22_00000000_00000006 = some ⟨.ok, 0x3FB4D216F549B341⟩ := by decide +kernel
theorem test_mreadStdC_incomplete : answer (inJobM 1 []) 0x22_00000000_00000006 = some ⟨.error .protocol, 0⟩ := by
  decide +kernel
theorem test_mend_closes : (ask jobJ 0x23_00000000_00000000).map (fun x => (x.1, x.2.m.state)) =
    some (⟨.ok, 0⟩, .idle) := by decide +kernel
/-- V2: illegal wins over "no job" and over the range test. -/
theorem test_illegal_wins : answer State.reset 0x22_00000000_00000007 = some ⟨.error .illegalCommand, 0⟩ ∧
    answer (inJobC 16) 0x10_00000001_00000020 = some ⟨.error .illegalCommand, 0⟩ := by decide +kernel
theorem test_reset_closes_both : ∃ t, step { jobJ with c := UnitC.opened 3, pending := [.assertReset (some 0)] } = .next t ∧
    t.c.active = false ∧ t.m.state = .idle ∧ t.responses = [] := ⟨_, rfl, rfl, rfl, rfl⟩
theorem test_response_word : Response.word ⟨.error .protocol, 0⟩ = 0x30000000000000000 := by decide

/-! Numerics: ties and carries of table V6. -/

theorem test_rn64_ties : rn64 (2 ^ 53 + 3) 2 = 0x4330000000000002 ∧ rn64 (2 ^ 53 + 5) 2 = 0x4330000000000002 ∧
    rn64 (2 ^ 54 - 1) 2 = 0x4340000000000000 ∧ rn64 (2 ^ 54 - 1) 1 = 0x4350000000000000 := by decide +kernel
theorem test_rn64Sqrt_ties : rn64Sqrt ((2 ^ 53 + 3) ^ 2) 4 = 0x4330000000000002 ∧
    rn64Sqrt ((2 ^ 53 + 5) ^ 2) 4 = 0x4330000000000002 ∧
    rn64Sqrt ((2 ^ 53 - 1) ^ 2 + (2 ^ 53 - 1)) 1 = 0x433FFFFFFFFFFFFF := by decide +kernel
theorem test_intOf : intOf 0xBF800000 = -2 ^ 149 ∧ intOf 0x007FFFFF = 8388607 ∧
    intOf 0x7F7FFFFF = 16777215 * 2 ^ 253 ∧ intOf 0x80000000 = 0 := by decide +kernel

/-! Witnesses: a state and operands that meet all the hypotheses of an obligation together, one theorem for each
obligation that has hypotheses, at the ends of their ranges. -/

/-- Two finite pairs, the second at the largest finite magnitudes (job M6 of table V8). -/
def samplePairs : List (Word × Word) := [(0x00000001, 0x80000000), (0x7F7FFFFF, 0xFF7FFFFF)]

theorem witness_DecodeOfEncode : ∀ k : Int, k = -2 ^ 31 ∨ k = 2 ^ 31 - 1 → Instr.wellFormed (.cstart k) = true := by
  rintro k (rfl | rfl) <;> decide

theorem witness_EncodeOfDecode : ∃ w i, decode w = .ok i := ⟨0x10_00000000_FFFFFFFF, .cstart (-1), by decide⟩

theorem witness_DecodeFollowsOpcodeTable : ∃ w : CmdWord, ∃ r ∈ opcodeTable, w &&& r.mask = r.pattern :=
  ⟨0x20_FFFFFFFF_00000000, ⟨"MSTART", 0x200000000000000000, 0xFF0000000000000000⟩, by decide, by decide⟩

theorem witness_OperandsAreWholeFields :
    decode 0x10_00000000_80000000 = .ok (.cstart (-2 ^ 31)) ∧
    decode 0x20_FFFFFFFF_00000000 = .ok (.mstart 0xFFFFFFFF 0) ∧
    decode 0x11_00000000_FFFFFFFF = .ok (.cpush 0xFFFFFFFF) ∧
    decode 0x21_00000000_FFFFFFFF = .ok (.mpush 0 0xFFFFFFFF) ∧
    (Instr.mreadStdC ∈ allReads ∧ decode 0x22_00000000_00000006 = .ok .mreadStdC) := by decide

theorem witness_IllegalWordsAndTheirAnswer : ∃ (s : State) (w : CmdWord) (rest : List HostEvent) (e : DecodeError),
    s.pending = .present w :: rest ∧ decode w = .error e :=
  ⟨State.reset.withFetchWord 72 7, 7, [], .unknownOpcode, by decide, by decide⟩

theorem witness_StepRunsTheDecodedCommand : ∃ (s : State) (w : CmdWord) (rest : List HostEvent) (i : Instr),
    s.pending = .present w :: rest ∧ decode w = .ok i ∧ i.wellFormed = true :=
  ⟨{ State.reset with pending := [.present 0x12_00000000_00000000, .assertReset none] }, _, _, .cend, rfl,
    by decide, rfl⟩

theorem witness_ResponseWordAndPayload :
    (∃ t r, Answers (inJobC 16) (.cpush 1) t r ∧ r.status = .ok) ∧
    (∃ t r, Answers State.reset (.cpush 1) t r ∧ r.status ≠ .ok) :=
  ⟨⟨_, _, ⟨rfl, rfl⟩, rfl⟩, ⟨_, ⟨.error .protocol, 0⟩, ⟨rfl, rfl⟩, by decide⟩⟩

/-- Also for ErrorsWriteOnlyTheirTable and ErrorsLeaveNoTrace: one state and word for each of the four errors. -/
theorem witness_StatusIsRaisedExactlyWhen : ∀ e : ErrorCode,
    ∃ (s t : State) (w : CmdWord) (rest : List HostEvent) (r : Response),
      s.pending = .present w :: rest ∧ step s = .next t ∧ t.responses = s.responses ++ [r] ∧ r.status = .error e
  | .invalidParameter => ⟨{ inJobC 16 with pending := [.present 0x10_00000000_00000020] }, _, _, _,
      ⟨.error .invalidParameter, 0⟩, rfl, rfl, rfl, rfl⟩
  | .lengthMismatch => ⟨{ jobJ with pending := [.present 0x20_00000000_00000001] }, _, _, _,
      ⟨.error .lengthMismatch, 0⟩, rfl, rfl, rfl, rfl⟩
  | .protocol => ⟨{ State.reset with pending := [.present 0x11_00000000_00000000] }, _, _, _,
      ⟨.error .protocol, 0⟩, rfl, rfl, rfl, rfl⟩
  | .illegalCommand => ⟨{ State.reset with pending := [.present 0] }, _, _, _,
      ⟨.error .illegalCommand, 0⟩, rfl, rfl, rfl, rfl⟩

theorem witness_CstartOpensOrRejects :
    ((-2 : Int) ^ 31 ≤ -2 ^ 31 ∧ (-2 : Int) ^ 31 < 2 ^ 31) ∧
    (∃ k : Int, k = 0 ∧ (0 ≤ k ∧ k ≤ 31)) ∧ (∃ k : Int, k = 31 ∧ (0 ≤ k ∧ k ≤ 31)) ∧
    (∃ k : Int, k = -1 ∧ (k < 0 ∨ 31 < k)) ∧ (∃ k : Int, k = 32 ∧ (k < 0 ∨ 31 < k)) := by
  refine ⟨by decide, ⟨_, rfl, by decide⟩, ⟨_, rfl, by decide⟩, ⟨_, rfl, by decide⟩, ⟨_, rfl, by decide⟩⟩

theorem witness_CpushAnswersTheMaskedWord : (inJobC 31).c.active = true ∧ State.reset.c.active = false := by decide

theorem witness_CendClosesTheJob : State.reset.c.active = false := by decide

theorem witness_MaskHasTheTopBits : (0 : Nat) < 32 ∧ (31 : Nat) < 32 := by decide

theorem witness_MaskingIsIdempotent : (31 : BitVec 5).toNat = max (0 : BitVec 5).toNat (31 : BitVec 5).toNat := by decide

theorem witness_MaskTouchesFieldsByK :
    (0 : BitVec 5).toNat = 0 ∧ (1 ≤ (1 : BitVec 5).toNat ∧ (1 : BitVec 5).toNat ≤ 22) ∧
    (1 ≤ (22 : BitVec 5).toNat ∧ (22 : BitVec 5).toNat ≤ 22) ∧ (23 : BitVec 5).toNat = 23 ∧
    (24 ≤ (24 : BitVec 5).toNat ∧ (24 : BitVec 5).toNat ≤ 30) ∧
    (24 ≤ (30 : BitVec 5).toNat ∧ (30 : BitVec 5).toNat ≤ 30) ∧ (31 : BitVec 5).toNat = 31 := by decide

theorem witness_MaskOnSpecialInputs :
    IsZero 0x80000000 ∧ IsFinite 0x80000000 ∧ IsSubnormal 0x00000001 ∧ IsSubnormal 0x807FFFFF ∧
    IsNormal 0x00800000 ∧ IsNormal 0x7F7FFFFF ∧ IsInf 0x7F800000 ∧ IsInf 0xFF800000 ∧
    IsNan 0x7F800001 ∧ IsNan 0xFFFFFFFF ∧ ¬ IsFinite 0x7F800000 := by decide

theorem witness_QuantizationErrorBound :
    IsFinite 0x7F7FFFFF ∧ (0x7F7FFFFF &&& maskOf 31 : Word) = 0 ∧ IsFinite 0x00000001 ∧
    (0x00000001 &&& maskOf 0 : Word) = 0x00000001 := by decide

theorem witness_CompressMasksEveryElement :
    (((0 : Int) ≤ 0 ∧ (0 : Int) ≤ 31) ∧ ((0 : Int) ≤ 31 ∧ (31 : Int) ≤ 31)) ∧
    ¬ ((0 : Int) ≤ -1 ∧ (-1 : Int) ≤ 31) ∧ ¬ ((0 : Int) ≤ 32 ∧ (32 : Int) ≤ 31) := by decide

/-- R108: "if k < 0 or k > 31: the error InvalidParameter", so 2^32 and -2^32 do not run as 0. -/
theorem test_compress_wide_k_is_invalid :
    ((State.reset.compress (2 ^ 32) [0x3F800001]).map fun r => r.2.toOption) = some none ∧
    ((State.reset.compress (-2 ^ 32) [0x3F800001]).map fun r => r.2.toOption) = some none ∧
    ((State.reset.compress 16 [0x3F800001]).map fun r => r.2.toOption) = some (some [0x3F800000]) := by decide

theorem witness_MstartOpensOrRejects : (0xFFFFFFFF : Word) = 0xFFFFFFFF ∧ (0 : Word) ≠ 0xFFFFFFFF := by decide

theorem witness_MpushAccumulatesOrRefuses :
    ((inJobM 1 []).m.state = .active ∧ (inJobM 1 []).m.count ≠ (inJobM 1 []).m.len) ∧
    State.reset.m.state = .idle ∧ (inJobM 0 []).m.count = (inJobM 0 []).m.len := by decide

theorem witness_JobHoldsTheSumsOfItsPairs : ∃ (len : Word) (ps : List (Word × Word)) (s : State),
    s.m = jobOf len ps ∧ ps.length < len.toNat :=
  ⟨3, samplePairs, { State.reset with m := jobOf 3 samplePairs }, rfl, by decide⟩

theorem witness_MendClosesTheJob : State.reset.m.state = .idle := by decide

theorem witness_MreadAnswersItsResult :
    ((0 : Nat) < 7 ∧ (6 : Nat) < 7) ∧
    ((inJobM 0 []).m.state = .active ∧ (inJobM 0 []).m.count = (inJobM 0 []).m.len) ∧
    State.reset.m.state = .idle ∧ (inJobM 1 []).m.count ≠ (inJobM 1 []).m.len := by decide

/-- A side with these three flags. -/
def flagged (nan pinf ninf : Bool) : Side := { Side.cleared with nan, pinf, ninf }

theorem witness_ResultFunctionsOfAJob :
    (UnitM.opened 1).len ≠ 0 ∧ (1 : Nat) ≠ 0 ∧
    ({ UnitM.opened 1 with dNan := true }).dNan = true ∧
    (({ UnitM.opened 1 with dInf := true }).dNan = false ∧ ({ UnitM.opened 1 with dInf := true }).dInf = true) ∧
    ((UnitM.opened 1).dNan = false ∧ (UnitM.opened 1).dInf = false) ∧
    (flagged false true true).pinf = true ∧ (flagged false true true).ninf = true ∧
    ((flagged false true false).nan = false ∧ (flagged false true false).pinf = true ∧
      (flagged false true false).ninf = false) ∧
    ((flagged false false true).nan = false ∧ (flagged false false true).pinf = false ∧
      (flagged false false true).ninf = true) ∧
    ((flagged false false false).nan = false ∧ (flagged false false false).pinf = false ∧
      (flagged false false false).ninf = false) := by decide

theorem witness_EmptyJobAnswersQuietNan :
    (inJobM 0 []).m.state = .active ∧ (inJobM 0 []).m.len = 0 ∧ (inJobM 0 []).m.count = 0 ∧
    Instr.mreadStdC ∈ allReads := by decide

/-- Two finite words are an all-finite buffer. -/
theorem allFinite_pair {a b : Word} (ha : IsFinite a) (hb : IsFinite b) : AllFinite [a, b] :=
  List.forall_mem_cons.2 ⟨ha, List.forall_mem_singleton.2 hb⟩

/-- The hypotheses of the statements about a complete, non-empty, all-finite job: MseIsTheExactMeanRoundedOnce,
MeanIsTheExactMeanRoundedOnce, VarianceIsExactRoundedOnce, StdDevIsExactRootRoundedOnce, RoundingArgumentsInRange. -/
theorem witness_complete_finite_job :
    (2 : Word) ≠ 0 ∧ samplePairs.length = (2 : Word).toNat ∧
    AllFinite (samplePairs.map (·.1)) ∧ AllFinite (samplePairs.map (·.2)) :=
  ⟨by decide, rfl, allFinite_pair (by decide) (by decide), allFinite_pair (by decide) (by decide)⟩

theorem witness_VarianceNumeratorIsNonnegative : ([0x3F800000, 0x7FC00000] : List Word).length ≤ 2 := by decide

/-- Each clause: a NaN, the same infinity twice, opposite infinities, both infinities or one of them in a buffer. -/
theorem witness_NonFiniteWordsPropagate :
    (1 : Word) ≠ 0 ∧ [((0x7FC00000 : Word), (0 : Word))].length = (1 : Word).toNat ∧ IsNan 0x7FC00000 ∧
    PairIsNan 0x7F800000 0x7F800000 ∧ (¬ PairIsNan 0x7F800000 0xFF800000 ∧ IsInf 0x7F800000) ∧
    (pinf32 ∈ [pinf32, ninf32] ∧ ninf32 ∈ [pinf32, ninf32]) ∧
    (¬ IsNan pinf32 ∧ pinf32 ∈ [pinf32] ∧ ninf32 ∉ [pinf32]) ∧
    (¬ IsNan ninf32 ∧ ninf32 ∈ [ninf32] ∧ pinf32 ∉ [ninf32]) ∧ ¬ IsFinite 0x7FC00000 := by decide

theorem witness_PairOrderDoesNotMatter : samplePairs.Perm samplePairs.reverse :=
  (List.reverse_perm samplePairs).symm

theorem witness_MseOfABufferAgainstItself :
    ([0x3F800000] : List Word).length = (1 : Word).toNat ∧ AllFinite [0x3F800000] ∧ ¬ AllFinite [0x7FC00000] ∧
    ([] : List Word).length = (0 : Word).toNat :=
  ⟨rfl, List.forall_mem_singleton.2 (by decide), fun h => absurd (List.forall_mem_singleton.1 h) (by decide), rfl⟩

theorem witness_MseGrowsWithBitsToZero :
    (1 : Word) ≠ 0 ∧ ([0x3DCCCCCD] : List Word).length = (1 : Word).toNat ∧ AllFinite [0x3DCCCCCD] ∧
    (0 : BitVec 5).toNat < (31 : BitVec 5).toNat :=
  ⟨by decide, rfl, List.forall_mem_singleton.2 (by decide), by decide⟩

theorem witness_ConstantBufferHasNoSpread :
    (0 : Nat) < 1 ∧ (1 : Nat) < 2 ^ 32 ∧ (2 : Nat) ^ 32 - 1 < 2 ^ 32 ∧ IsFinite 0x3DCCCCCD ∧ ¬ IsFinite 0xFF800000 := by
  decide

theorem witness_ResultSignsAndMeanBounds : samplePairs.length = (2 : Word).toNat ∧ (2 : Word) ≠ 0 ∧
    AllFinite (samplePairs.map (·.1)) := ⟨rfl, by decide, allFinite_pair (by decide) (by decide)⟩

theorem witness_AccumulatorsFitTheirWidths : samplePairs.length ≤ (2 : Word).toNat := by decide

theorem witness_MetricsReportsTheJobOfThePairs_tooLong :
    ¬ ((List.replicate (2 ^ 32) (0 : Word)).length < 2 ^ 32 ∧ ([] : List Word).length < 2 ^ 32) := by
  rw [List.length_replicate]; decide

theorem witness_MetricsReportsTheJobOfThePairs :
    ([] : List Word).length < 2 ^ 32 ∧ ([0x3F800000] : List Word).length < 2 ^ 32 ∧
    ([] : List Word).length ≠ ([0x3F800000] : List Word).length := by decide

theorem witness_Rn64IsNearestTiesToEven : 0 < 3 ∧ InRange64 (-1) 3 := by
  unfold InRange64; decide +kernel

theorem witness_Rn64SqrtIsNearestTiesToEven : 0 < 1 ∧ InRangeSqrt64 2 1 := by
  unfold InRangeSqrt64; decide +kernel

theorem witness_MagnitudeOrderAndBounds :
    IsFinite 0x80000000 ∧ IsZero 0x80000000 ∧ IsFinite 0x7F7FFFFF ∧
    ((0x80000000 : Word).extractLsb' 0 31).toNat ≤ ((0x7F7FFFFF : Word).extractLsb' 0 31).toNat := by decide

/-- A state with a job open in each unit meets the invariants and steps. -/
theorem witness_StepKeepsTheInvariants : ∃ s t : State,
    s.Inv ∧ s.c.active = true ∧ s.m.state = .active ∧ step s = .next t :=
  ⟨{ State.reset with c := UnitC.opened 16, m := jobOf 3 samplePairs, pending := [.present 0x21_00000000_00000000] }, _,
    ⟨fun _ => rfl, fun _ => ⟨samplePairs, by decide, rfl⟩⟩, rfl, rfl, rfl⟩

/-- Two states that differ in the data of closed units and look the same; also for RunsDoNotSeeUnspecifiedData. -/
theorem witness_UnspecifiedDataIsUnobservable : ∃ s t s' : State, s ≠ t ∧ s.SameView t ∧ step s = .next s' :=
  ⟨State.reset, { State.reset with c := { State.reset.c with mask := 5 } }, State.reset, by decide,
    ⟨⟨rfl, fun h => by cases h⟩, ⟨rfl, fun h => by cases h⟩, rfl, rfl⟩, rfl⟩

/-- Also for CommandsWriteOnlyTheirElements and CommandsOfTheTwoUnitsCommute: one command of each unit. -/
theorem witness_UnitsShareNoState :
    (∃ t, exec (.cstart 40) jobJ = .next t) ∧ ofUnitC (.cstart 40) = true ∧
    (∃ t, exec (.mstart 1 2) jobJ = .next t) ∧ ofUnitC (.mstart 1 2) = false := ⟨⟨_, rfl⟩, rfl, ⟨_, rfl⟩, rfl⟩

theorem witness_ResetLeavesNoJobOpen : ∃ (s : State) (f : Option CmdWord) (rest : List HostEvent),
    s.c.active = true ∧ s.pending = .assertReset f :: rest :=
  ⟨{ inJobC 5 with pending := [.assertReset (some 0)] }, _, _, rfl, rfl⟩

theorem witness_ReadingTwiceAnswersTheSame :
    (Instr.mreadMse ∈ allReads ∧ ∃ t r, Answers (inJobM 0 []) .mreadMse t r) ∧
    ∃ t r, Answers (inJobC 3) (.cpush 7) t r :=
  ⟨⟨by decide, _, ⟨.ok, (inJobM 0 []).m.mse⟩, rfl, rfl⟩, _, _, rfl, rfl⟩

end Sys2Proof.Tests
end

section
/-! PROOFS. The family of spec/10_state.md: every command as a function of its own unit, what a step does to the state,
and the obligations O48, O24, O41, O50, O51, O49, O52 and O54. -/

namespace Sys2Proof.Machine

/-! A command as a function of its own unit: what it writes there and what it answers (R20). -/

/-- Unit C takes `u.1` and the host takes the answer `u.2`. -/
def State.answerC (s : State) (u : UnitC × Response) : State :=
  { s with c := u.1, responses := s.responses ++ [u.2] }

/-- Unit M takes `u.1` and the host takes the answer `u.2`. -/
def State.answerM (s : State) (u : UnitM × Response) : State :=
  { s with m := u.1, responses := s.responses ++ [u.2] }

section Answer
variable (s : State) (u : UnitC × Response) (v : UnitM × Response)

@[simp] theorem State.answerC_c : (s.answerC u).c = u.1 := rfl
@[simp] theorem State.answerC_m : (s.answerC u).m = s.m := rfl
@[simp] theorem State.answerC_pending : (s.answerC u).pending = s.pending := rfl
@[simp] theorem State.answerC_responses : (s.answerC u).responses = s.responses ++ [u.2] := rfl
@[simp] theorem State.answerC_freeIndex : (s.answerC u).freeIndex = s.freeIndex := rfl
@[simp] theorem State.answerM_c : (s.answerM v).c = s.c := rfl
@[simp] theorem State.answerM_m : (s.answerM v).m = v.1 := rfl
@[simp] theorem State.answerM_pending : (s.answerM v).pending = s.pending := rfl
@[simp] theorem State.answerM_responses : (s.answerM v).responses = s.responses ++ [v.2] := rfl
@[simp] theorem State.answerM_freeIndex : (s.answerM v).freeIndex = s.freeIndex := rfl

end Answer

/-- CSTART on unit C alone: the job it leaves, and the answer (R101). -/
def UnitC.start (c : UnitC) (k : Int) : UnitC × Response :=
  if ValidK k then (UnitC.opened (BitVec.ofInt 5 k), ⟨.ok, 0⟩) else (c.closed, ⟨.error .invalidParameter, 0⟩)

/-- CPUSH on unit C alone, which it does not write, and the answer (R102). -/
def UnitC.compress (c : UnitC) (w : Word) : UnitC × Response :=
  if c.active then (c, ⟨.ok, (w &&& c.mask).setWidth 64⟩) else (c, ⟨.error .protocol, 0⟩)

/-- What a command of unit C writes of it and answers, from unit C's state alone (R101 to R103). A command of unit M
is none of unit C's, and its value here is not used. -/
def UnitC.run : Instr → UnitC → UnitC × Response
  | .cstart k, c => c.start k
  | .cpush w, c => c.compress w
  | .cend, c => (c.closed, ⟨.ok, 0⟩)
  | _, c => (c, ⟨.ok, 0⟩)

/-- MSTART on unit M alone: the job it leaves, and the answer (R140). -/
def UnitM.start (m : UnitM) (lenO lenC : Word) : UnitM × Response :=
  if lenO = lenC then (UnitM.opened lenO, ⟨.ok, 0⟩) else (m.closed, ⟨.error .lengthMismatch, 0⟩)

/-- MPUSH on unit M alone: the job with the pair in it, and the answer (R141). -/
def UnitM.accumulate (m : UnitM) (o c : Word) : UnitM × Response :=
  if m.TakesPair then (m.push o c, ⟨.ok, 0⟩) else (m, ⟨.error .protocol, 0⟩)

/-- MREAD on unit M alone, which it does not write, and the answer (R143). -/
def UnitM.read (m : UnitM) (result : Double) : UnitM × Response :=
  if m.Complete then (m, ⟨.ok, result⟩) else (m, ⟨.error .protocol, 0⟩)

/-- What a command of unit M writes of it and answers, from unit M's state alone (R140 to R143). A command of unit C
is none of unit M's, and its value here is not used. -/
def UnitM.run : Instr → UnitM → UnitM × Response
  | .mstart lenO lenC, m => m.start lenO lenC
  | .mpush o c, m => m.accumulate o c
  | .mreadMse, m => m.read m.mse
  | .mreadMeanO, m => m.read (m.o.mean m.n)
  | .mreadMeanC, m => m.read (m.c.mean m.n)
  | .mreadVarO, m => m.read (m.o.var m.n)
  | .mreadVarC, m => m.read (m.c.var m.n)
  | .mreadStdO, m => m.read (m.o.std m.n)
  | .mreadStdC, m => m.read (m.c.std m.n)
  | .mend, m => (m.closed, ⟨.ok, 0⟩)
  | _, m => (m, ⟨.ok, 0⟩)

section Units
variable (s : State) (c : UnitC) (m : UnitM)

/-- Compressing an element writes nothing of unit C. -/
@[simp] theorem UnitC.compress_fst (w : Word) : (c.compress w).1 = c := by
  unfold UnitC.compress; split <;> rfl

/-- Reading a result writes nothing of unit M. -/
@[simp] theorem UnitM.read_fst (r : Double) : (m.read r).1 = m := by
  unfold UnitM.read; split <;> rfl

theorem execCstart_eq_answerC (k : Int) : execCstart k s = .next (s.answerC (s.c.start k)) := by
  unfold execCstart UnitC.start; split <;> rfl

theorem execCpush_eq_answerC (w : Word) : execCpush w s = .next (s.answerC (s.c.compress w)) := by
  unfold execCpush UnitC.compress; split <;> rfl

theorem execMstart_eq_answerM (a b : Word) : execMstart a b s = .next (s.answerM (s.m.start a b)) := by
  unfold execMstart UnitM.start; split <;> rfl

theorem execMpush_eq_answerM (a b : Word) : execMpush a b s = .next (s.answerM (s.m.accumulate a b)) := by
  unfold execMpush UnitM.accumulate; split <;> rfl

theorem readResult_eq_answerM (r : Double) : s.readResult r = s.answerM (s.m.read r) := by
  unfold State.readResult UnitM.read; split <;> rfl

end Units

/-- A command of unit C is its function of unit C, and nothing else of the state enters it (R20). -/
theorem exec_of_unitC {i : Instr} (hi : ofUnitC i = true) (s : State) :
    exec i s = .next (s.answerC (UnitC.run i s.c)) := by
  cases i with
  | cstart k => exact execCstart_eq_answerC s k
  | cpush w => exact execCpush_eq_answerC s w
  | cend => rfl
  | _ => cases hi

/-- A command of unit M is its function of unit M, and nothing else of the state enters it (R20). -/
theorem exec_of_unitM {i : Instr} (hi : ofUnitC i = false) (s : State) :
    exec i s = .next (s.answerM (UnitM.run i s.m)) := by
  cases i with
  | mstart a b => exact execMstart_eq_answerM s a b
  | mpush o c => exact execMpush_eq_answerM s o c
  | mend => rfl
  | mreadMse | mreadMeanO | mreadMeanC | mreadVarO | mreadVarC | mreadStdO | mreadStdC =>
    exact congrArg Host.Outcome.next (readResult_eq_answerM s _)
  | _ => cases hi

/-- Every command is one of unit C's or one of unit M's, and answers as its unit's function says. -/
theorem exec_cases {i : Instr} {s t : State} (h : exec i s = .next t) :
    (ofUnitC i = true ∧ t = s.answerC (UnitC.run i s.c)) ∨ (ofUnitC i = false ∧ t = s.answerM (UnitM.run i s.m)) := by
  cases hi : ofUnitC i
  · exact .inr ⟨rfl, (Host.Outcome.next.inj ((exec_of_unitM hi s).symm.trans h)).symm⟩
  · exact .inl ⟨rfl, (Host.Outcome.next.inj ((exec_of_unitC hi s).symm.trans h)).symm⟩

/-- What a command can leave in unit C: its state as it was, its job closed, or a job just opened. -/
theorem UnitC.run_fst_cases (i : Instr) (c : UnitC) :
    (UnitC.run i c).1 = c ∨ (UnitC.run i c).1 = c.closed ∨ ∃ k, (UnitC.run i c).1 = UnitC.opened k := by
  cases i with
  | cstart k =>
    show (c.start k).1 = c ∨ (c.start k).1 = c.closed ∨ ∃ k', (c.start k).1 = UnitC.opened k'
    unfold UnitC.start
    split
    · exact .inr (.inr ⟨_, rfl⟩)
    · exact .inr (.inl rfl)
  | cpush w => exact .inl (c.compress_fst w)
  | cend => exact .inr (.inl rfl)
  | _ => exact .inl rfl

/-- What a command can leave in unit M: its state as it was, its job closed, a job just opened, or its job with one
pair more. -/
theorem UnitM.run_fst_cases (i : Instr) (m : UnitM) :
    (UnitM.run i m).1 = m ∨ (UnitM.run i m).1 = m.closed ∨ (∃ len, (UnitM.run i m).1 = UnitM.opened len) ∨
      ∃ o c, m.TakesPair ∧ (UnitM.run i m).1 = m.push o c := by
  cases i with
  | mstart a b =>
    show (m.start a b).1 = m ∨ (m.start a b).1 = m.closed ∨ (∃ len, (m.start a b).1 = UnitM.opened len) ∨ _
    unfold UnitM.start
    split
    · exact .inr (.inr (.inl ⟨_, rfl⟩))
    · exact .inr (.inl rfl)
  | mpush o c =>
    by_cases h : m.TakesPair
    · exact .inr (.inr (.inr ⟨o, c, h, congrArg Prod.fst (if_pos h)⟩))
    · exact .inl (congrArg Prod.fst (if_neg h))
  | mend => exact .inr (.inl rfl)
  | mreadMse | mreadMeanO | mreadMeanC | mreadVarO | mreadVarC | mreadStdO | mreadStdC => exact .inl (m.read_fst _)
  | _ => exact .inl rfl

/-! What a step gives for each event of the host. -/

section Step
variable {s : State} {rest : List HostEvent}

theorem step_of_pending_nil (hp : s.pending = []) : step s = .next s := by
  unfold step State.fetch; rw [hp]

theorem step_of_present_ok {w : CmdWord} {i : Instr} (hp : s.pending = .present w :: rest)
    (hd : decode w = .ok i) : step s = exec i { s with pending := rest } := by
  unfold step State.fetch; rw [hp]; simp only [hd]

theorem step_of_present_error {w : CmdWord} {e : DecodeError} (hp : s.pending = .present w :: rest)
    (hd : decode w = .error e) : step s = .next ({ s with pending := rest }.raise .illegalCommand) := by
  unfold step State.fetch; rw [hp]; simp only [hd]

theorem step_of_assertReset {f : Option CmdWord} (hp : s.pending = .assertReset f :: rest) :
    step s = .next ({ s with pending := rest }.applyReset f) := by
  unfold step State.fetch; rw [hp]

end Step

/-- A step never stops (R230, R234). -/
theorem step_total (s : State) : ∃ t, step s = .next t := by
  cases hp : s.pending with
  | nil => exact ⟨_, step_of_pending_nil hp⟩
  | cons ev rest =>
    cases ev with
    | present w =>
      cases hd : decode w with
      | ok i =>
        obtain ⟨t, -, ht, -⟩ := exec_answers i { s with pending := rest }
        exact ⟨t, (step_of_present_ok hp hd).trans ht⟩
      | error e => exact ⟨_, step_of_present_error hp hd⟩
    | assertReset f => exact ⟨_, step_of_assertReset hp⟩

/-- A run that begins with this step goes on from the state the step gives. -/
theorem run_succ_of_step {M : Host.Core} {s t : M.State} (h : M.step s = .next t) (n : Nat) :
    M.run (n + 1) s = M.run n t := by
  rw [Host.Core.run, h]

/-! The data of a job (R30 to R32, R35). -/

/-- A job just opened holds the data of no pairs. -/
theorem jobOf_nil (len : Word) : jobOf len [] = UnitM.opened len := rfl

/-- Two states of unit M with the same elements are the same. -/
theorem UnitM.eq_of_fields : ∀ {a b : UnitM}, a.state = b.state → a.len = b.len → a.count = b.count → a.sd = b.sd →
    a.dNan = b.dNan → a.dInf = b.dInf → a.o = b.o → a.c = b.c → a = b := by
  rintro ⟨⟩ ⟨⟩ rfl rfl rfl rfl rfl rfl rfl rfl; rfl

/-- The data of one pair more are what MPUSH makes of the data of the pairs. -/
theorem jobOf_append_singleton (len : Word) (ps : List (Word × Word)) (o c : Word) :
    jobOf len (ps ++ [(o, c)]) = (jobOf len ps).push o c := by
  have count : BitVec.ofNat 32 (ps ++ [(o, c)]).length = BitVec.ofNat 32 ps.length + 1 := by
    rw [List.length_append, List.length_singleton, BitVec.ofNat_add]; rfl
  have sd : sumSd (ps ++ [(o, c)]) = ((jobOf len ps).push o c).sd := by
    rw [UnitM.push_sd, sumSd_append, sumSd_singleton]
    simp only [← pair_finite_iff, ite_not]; rfl
  have flag : ∀ f : Word × Word → Bool, (ps ++ [(o, c)]).any f = (ps.any f || f (o, c)) := by
    intro f
    rw [List.any_append, List.any_cons, List.any_nil, Bool.or_false]
  have side : ∀ f : Word × Word → Word,
      sideOf ((ps ++ [(o, c)]).map f) = (sideOf (ps.map f)).push (f (o, c)) := by
    intro f
    rw [List.map_append, List.map_singleton, sideOf_append_singleton]
  exact UnitM.eq_of_fields (UnitM.push_state (jobOf len ps) o c).symm (UnitM.push_len (jobOf len ps) o c).symm count sd
    ((flag _).trans (UnitM.push_dNan (jobOf len ps) o c).symm)
    ((flag _).trans (UnitM.push_dInf (jobOf len ps) o c).symm)
    (side Prod.fst) (side Prod.snd)

/-- A job that holds fewer pairs than its length takes another. -/
theorem jobOf_takesPair {len : Word} {ps : List (Word × Word)} (h : ps.length < len.toNat) :
    (jobOf len ps).TakesPair := by
  refine ⟨rfl, fun hcount => ?_⟩
  have hlen : ps.length % 2 ^ 32 = len.toNat := (BitVec.toNat_ofNat _ _).symm.trans (congrArg BitVec.toNat hcount)
  rw [Nat.mod_eq_of_lt (h.trans len.isLt)] at hlen
  omega

/-- A job that takes another pair holds fewer than its length. -/
theorem length_lt_of_takesPair {len : Word} {ps : List (Word × Word)} (hle : ps.length ≤ len.toNat)
    (h : (jobOf len ps).TakesPair) : ps.length < len.toNat := by
  refine lt_of_le_of_ne hle fun heq => h.2 ?_
  show BitVec.ofNat 32 ps.length = len
  rw [heq, BitVec.ofNat_toNat, BitVec.setWidth_eq]

/-! The invariants of R34, unit by unit. -/

/-- With no compression job open, item 1 says nothing. -/
theorem UnitC.inv_of_inactive {c : UnitC} (h : c.active = false) : c.Inv :=
  fun ha => absurd (h.symm.trans ha) Bool.false_ne_true

theorem UnitC.inv_opened (k : BitVec 5) : (UnitC.opened k).Inv := fun _ => rfl

/-- With no metrics job open, items 2 and 3 say nothing. -/
theorem UnitM.inv_of_idle {m : UnitM} (h : m.state = .idle) : m.Inv :=
  fun ha => absurd (h.symm.trans ha) (by decide)

theorem UnitM.inv_opened (len : Word) : (UnitM.opened len).Inv :=
  fun _ => ⟨[], Nat.zero_le _, (jobOf_nil len).symm⟩

/-- A job that takes a pair holds, after it, the data of its pairs and this one. -/
theorem UnitM.inv_push {m : UnitM} (h : m.Inv) (ht : m.TakesPair) (o c : Word) : (m.push o c).Inv := by
  obtain ⟨ps, hle, hm⟩ := h ht.1
  rw [hm] at ht
  have hlt : ps.length < m.len.toNat := length_lt_of_takesPair hle ht
  refine fun _ => ⟨ps ++ [(o, c)], ?_, ?_⟩
  · rw [UnitM.push_len, List.length_append, List.length_singleton]; exact hlt
  · rw [UnitM.push_len, jobOf_append_singleton, ← hm]

/-- Every command of unit C keeps item 1. -/
theorem UnitC.run_inv {c : UnitC} (h : c.Inv) (i : Instr) : (UnitC.run i c).1.Inv := by
  obtain hc | hc | ⟨k, hc⟩ := UnitC.run_fst_cases i c <;> rw [hc]
  · exact h
  · exact UnitC.inv_of_inactive rfl
  · exact UnitC.inv_opened k

/-- Every command of unit M keeps items 2 and 3. -/
theorem UnitM.run_inv {m : UnitM} (h : m.Inv) (i : Instr) : (UnitM.run i m).1.Inv := by
  obtain hm | hm | ⟨len, hm⟩ | ⟨o, c, ht, hm⟩ := UnitM.run_fst_cases i m <;> rw [hm]
  · exact h
  · exact UnitM.inv_of_idle rfl
  · exact UnitM.inv_opened len
  · exact UnitM.inv_push h ht o c

/-- Every command keeps the invariants. -/
theorem exec_inv {i : Instr} {s t : State} (h : s.Inv) (he : exec i s = .next t) : t.Inv := by
  obtain ⟨-, rfl⟩ | ⟨-, rfl⟩ := exec_cases he
  · exact ⟨UnitC.run_inv h.1 i, h.2⟩
  · exact ⟨h.1, UnitM.run_inv h.2 i⟩

/-! What cannot be told apart (R34 item 4), unit by unit. -/

/-- Two states of unit C with no job open cannot be told apart. -/
theorem UnitC.sameJob_of_inactive {a b : UnitC} (ha : a.active = false) (hb : b.active = false) : a.SameJob b :=
  ⟨ha.trans hb.symm, fun h => absurd (ha.symm.trans h) Bool.false_ne_true⟩

/-- States of unit C that cannot be told apart are equal or have no job open. -/
theorem UnitC.SameJob.eq_or_inactive {a b : UnitC} (h : a.SameJob b) :
    a = b ∨ (a.active = false ∧ b.active = false) := by
  obtain ⟨hactive, heq⟩ := h
  cases ha : a.active
  · exact .inr ⟨rfl, hactive.symm.trans ha⟩
  · exact .inl (heq ha)

/-- Two states of unit M with no job open cannot be told apart. -/
theorem UnitM.sameJob_of_idle {a b : UnitM} (ha : a.state = .idle) (hb : b.state = .idle) : a.SameJob b :=
  ⟨ha.trans hb.symm, fun h => absurd (ha.symm.trans h) (by decide)⟩

/-- States of unit M that cannot be told apart are equal or have no job open. -/
theorem UnitM.SameJob.eq_or_idle {a b : UnitM} (h : a.SameJob b) : a = b ∨ (a.state = .idle ∧ b.state = .idle) := by
  obtain ⟨hstate, heq⟩ := h
  cases ha : a.state
  · exact .inr ⟨rfl, hstate.symm.trans ha⟩
  · exact .inl (heq ha)

theorem UnitC.sameJob_refl (c : UnitC) : c.SameJob c := ⟨rfl, fun _ => rfl⟩

theorem UnitM.sameJob_refl (m : UnitM) : m.SameJob m := ⟨rfl, fun _ => rfl⟩

/-- What two commands leave in unit C cannot be told apart, and they answer the same. -/
def UnitC.SameAnswer (u v : UnitC × Response) : Prop := u.1.SameJob v.1 ∧ u.2 = v.2

/-- What two commands leave in unit M cannot be told apart, and they answer the same. -/
def UnitM.SameAnswer (u v : UnitM × Response) : Prop := u.1.SameJob v.1 ∧ u.2 = v.2

/-- CSTART reads nothing of unit C but what it may keep in a closed job. -/
theorem UnitC.start_sameAnswer (a b : UnitC) (k : Int) : UnitC.SameAnswer (a.start k) (b.start k) := by
  unfold UnitC.start
  split
  · exact ⟨UnitC.sameJob_refl _, rfl⟩
  · exact ⟨UnitC.sameJob_of_inactive rfl rfl, rfl⟩

/-- With no job open, CPUSH answers PROTOCOL (R102). -/
theorem UnitC.compress_of_inactive {c : UnitC} (h : c.active = false) (w : Word) :
    c.compress w = (c, ⟨.error .protocol, 0⟩) :=
  if_neg fun hc => absurd (h.symm.trans hc) Bool.false_ne_true

/-- With no job open, a command of unit C reads none of its data (R34 item 4). -/
theorem UnitC.run_of_inactive {a b : UnitC} (ha : a.active = false) (hb : b.active = false) (i : Instr) :
    UnitC.SameAnswer (UnitC.run i a) (UnitC.run i b) := by
  have kept : a.SameJob b := UnitC.sameJob_of_inactive ha hb
  cases i with
  | cstart k => exact UnitC.start_sameAnswer a b k
  | cpush w =>
    show UnitC.SameAnswer (a.compress w) (b.compress w)
    rw [UnitC.compress_of_inactive ha, UnitC.compress_of_inactive hb]
    exact ⟨kept, rfl⟩
  | cend => exact ⟨UnitC.sameJob_of_inactive rfl rfl, rfl⟩
  | _ => exact ⟨kept, rfl⟩

/-- MSTART reads nothing of unit M but what it may keep in a closed job. -/
theorem UnitM.start_sameAnswer (a b : UnitM) (lenO lenC : Word) :
    UnitM.SameAnswer (a.start lenO lenC) (b.start lenO lenC) := by
  unfold UnitM.start
  split
  · exact ⟨UnitM.sameJob_refl _, rfl⟩
  · exact ⟨UnitM.sameJob_of_idle rfl rfl, rfl⟩

/-- With no job open, MPUSH answers PROTOCOL (R141). -/
theorem UnitM.accumulate_of_idle {m : UnitM} (h : m.state = .idle) (o c : Word) :
    m.accumulate o c = (m, ⟨.error .protocol, 0⟩) :=
  if_neg fun hc => absurd (h.symm.trans hc.1) (by decide)

/-- With no job open, every MREAD form answers PROTOCOL, whatever its result would be (R143). -/
theorem UnitM.read_of_idle {m : UnitM} (h : m.state = .idle) (r : Double) : m.read r = (m, ⟨.error .protocol, 0⟩) :=
  if_neg fun hc => absurd (h.symm.trans hc.1) (by decide)

/-- With no job open, a command of unit M reads none of its data (R34 item 4). -/
theorem UnitM.run_of_idle {a b : UnitM} (ha : a.state = .idle) (hb : b.state = .idle) (i : Instr) :
    UnitM.SameAnswer (UnitM.run i a) (UnitM.run i b) := by
  have kept : a.SameJob b := UnitM.sameJob_of_idle ha hb
  have read : ∀ p q : Double, UnitM.SameAnswer (a.read p) (b.read q) := by
    intro p q
    rw [UnitM.read_of_idle ha, UnitM.read_of_idle hb]
    exact ⟨kept, rfl⟩
  cases i with
  | mstart lenO lenC => exact UnitM.start_sameAnswer a b lenO lenC
  | mpush o c =>
    show UnitM.SameAnswer (a.accumulate o c) (b.accumulate o c)
    rw [UnitM.accumulate_of_idle ha, UnitM.accumulate_of_idle hb]
    exact ⟨kept, rfl⟩
  | mend => exact ⟨UnitM.sameJob_of_idle rfl rfl, rfl⟩
  | mreadMse | mreadMeanO | mreadMeanC | mreadVarO | mreadVarC | mreadStdO | mreadStdC => exact read _ _
  | _ => exact ⟨kept, rfl⟩

/-- Commands of unit C answer alike, and stay alike, in states of it that cannot be told apart. -/
theorem UnitC.run_sameAnswer {a b : UnitC} (h : a.SameJob b) (i : Instr) :
    UnitC.SameAnswer (UnitC.run i a) (UnitC.run i b) := by
  obtain rfl | ⟨ha, hb⟩ := h.eq_or_inactive
  · exact ⟨UnitC.sameJob_refl _, rfl⟩
  · exact UnitC.run_of_inactive ha hb i

/-- Commands of unit M answer alike, and stay alike, in states of it that cannot be told apart. -/
theorem UnitM.run_sameAnswer {a b : UnitM} (h : a.SameJob b) (i : Instr) :
    UnitM.SameAnswer (UnitM.run i a) (UnitM.run i b) := by
  obtain rfl | ⟨ha, hb⟩ := h.eq_or_idle
  · exact ⟨UnitM.sameJob_refl _, rfl⟩
  · exact UnitM.run_of_idle ha hb i

section SameView
variable {s t : State}

/-- Two states that look the same have the same events before them. -/
theorem State.SameView.pending (h : s.SameView t) : s.pending = t.pending := by
  obtain ⟨-, -, hp, -⟩ := h
  exact hp

/-- Taking the same event from the host keeps two states alike. -/
theorem State.SameView.withPending (h : s.SameView t) (rest : List HostEvent) :
    { s with pending := rest }.SameView { t with pending := rest } := by
  obtain ⟨hc, hm, -, hr⟩ := h
  exact ⟨hc, hm, rfl, hr⟩

/-- A command executed in two states that look the same gives two such states, with the same answer. -/
theorem exec_sameView (h : s.SameView t) {i : Instr} {s' : State} (he : exec i s = .next s') :
    ∃ t', exec i t = .next t' ∧ s'.SameView t' := by
  obtain ⟨hc, hm, hp, hr⟩ := h
  obtain ⟨hi, rfl⟩ | ⟨hi, rfl⟩ := exec_cases he
  · obtain ⟨hunit, hanswer⟩ := UnitC.run_sameAnswer hc i
    exact ⟨_, exec_of_unitC hi t, hunit, hm, hp, congrArg₂ (· ++ [·]) hr hanswer⟩
  · obtain ⟨hunit, hanswer⟩ := UnitM.run_sameAnswer hm i
    exact ⟨_, exec_of_unitM hi t, hc, hunit, hp, congrArg₂ (· ++ [·]) hr hanswer⟩

/-- Two states that look the same answer an illegal word alike. -/
theorem State.SameView.raise_illegalCommand (h : s.SameView t) :
    (s.raise .illegalCommand).SameView (t.raise .illegalCommand) := by
  obtain ⟨hc, hm, hp, hr⟩ := h
  exact ⟨hc, hm, hp, congrArg (· ++ [_]) hr⟩

/-- After a reset no unit has an open job, so the free values it leaves do not show. -/
theorem State.SameView.applyReset (h : s.SameView t) (f : Option CmdWord) :
    (s.applyReset f).SameView (t.applyReset f) := by
  obtain ⟨-, -, hp, hr⟩ := h
  exact ⟨UnitC.sameJob_of_inactive rfl rfl, UnitM.sameJob_of_idle rfl rfl, hp, hr⟩

/-- One step of two states that look the same gives two such states. -/
theorem step_sameView (h : s.SameView t) {s' : State} (hs : step s = .next s') :
    ∃ t', step t = .next t' ∧ s'.SameView t' := by
  have hpending := h.pending
  obtain ⟨hp, rfl⟩ | ⟨w, rest, i, hp, hd, he⟩ | ⟨w, rest, e, hp, hd, rfl⟩ | ⟨f, rest, hp, rfl⟩ := step_cases hs
  · exact ⟨t, step_of_pending_nil (hpending.symm.trans hp), h⟩
  · obtain ⟨t', ht, hv⟩ := exec_sameView (h.withPending rest) he
    exact ⟨t', (step_of_present_ok (hpending.symm.trans hp) hd).trans ht, hv⟩
  · exact ⟨_, step_of_present_error (hpending.symm.trans hp) hd, (h.withPending rest).raise_illegalCommand⟩
  · exact ⟨_, step_of_assertReset (hpending.symm.trans hp), (h.withPending rest).applyReset f⟩

end SameView

/-- A run of two states that look the same gives two such states. -/
theorem run_sameView (n : Nat) : ∀ {s t : State}, s.SameView t →
    ∃ s' t', Sys2Proof.core.run n s = .next s' ∧ Sys2Proof.core.run n t = .next t' ∧ s'.SameView t' := by
  induction n with
  | zero => exact fun h => ⟨_, _, rfl, rfl, h⟩
  | succ n ih =>
    intro s t h
    obtain ⟨s₁, hs⟩ := step_total s
    obtain ⟨t₁, ht, h₁⟩ := step_sameView h hs
    obtain ⟨s', t', hs', ht', h'⟩ := ih h₁
    exact ⟨s', t', (run_succ_of_step (M := Sys2Proof.core) hs n).trans hs',
      (run_succ_of_step (M := Sys2Proof.core) ht n).trans ht', h'⟩

/-! The widths of the accumulators (R33). -/

/-- R172: the largest magnitude of a finite word. -/
theorem magOf_le {w : Word} (h : IsFinite w) : magOf w ≤ (2 ^ 24 - 1) * 2 ^ 253 := by
  have hf : (mantOf w).toNat < 2 ^ 23 := (mantOf w).isLt
  have he : (expoOf w).toNat < 2 ^ 8 := (expoOf w).isLt
  have hne : (expoOf w).toNat ≠ 255 := fun heq => h (BitVec.eq_of_toNat_eq heq)
  unfold magOf
  split
  · exact le_trans hf.le (by norm_num)
  · exact Nat.mul_le_mul (by omega) (Nat.pow_le_pow_right (by norm_num) (by omega))

/-- The magnitude of `m(w)` is `mag(w)` (R172). -/
theorem natAbs_intOf (w : Word) : (intOf w).natAbs = magOf w := by
  unfold intOf; split
  · rw [Int.natAbs_neg, Int.natAbs_natCast]
  · exact Int.natAbs_natCast _

theorem natAbs_intOf_le {w : Word} (h : IsFinite w) : (intOf w).natAbs ≤ 2 ^ 277 := by
  calc (intOf w).natAbs = magOf w := natAbs_intOf w
    _ ≤ (2 ^ 24 - 1) * 2 ^ 253 := magOf_le h
    _ ≤ 2 ^ 24 * 2 ^ 253 := Nat.mul_le_mul_right _ (Nat.sub_le _ _)
    _ = 2 ^ 277 := by rw [← pow_add]

/-- The magnitude of a sum is at most the sum of the magnitudes. -/
theorem natAbs_sum_le_sum_natAbs (l : List Int) : l.sum.natAbs ≤ (l.map Int.natAbs).sum := by
  induction l with
  | nil => exact le_rfl
  | cons a l ih =>
    rw [List.sum_cons, List.map_cons, List.sum_cons]
    exact le_trans (Int.natAbs_add_le a l.sum) (Nat.add_le_add_left ih _)

/-- A sum of fewer than `n` terms, each at most `b`, is below `n * b`. -/
theorem sum_map_filter_lt {α : Type} {xs : List α} {p : α → Bool} {f : α → Nat} {n b : Nat} (hn : xs.length < n)
    (hb : 0 < b) (hf : ∀ x, p x = true → f x ≤ b) : ((xs.filter p).map f).sum < n * b := by
  have bound : ∀ y ∈ (xs.filter p).map f, y ≤ b := by
    intro y hy
    obtain ⟨x, hx, rfl⟩ := List.mem_map.1 hy
    exact hf x (List.mem_filter.1 hx).2
  calc ((xs.filter p).map f).sum
      ≤ ((xs.filter p).map f).length * b := List.sum_le_card_nsmul _ b bound
    _ ≤ xs.length * b := Nat.mul_le_mul_right b (by rw [List.length_map]; exact List.length_filter_le p xs)
    _ < n * b := Nat.mul_lt_mul_of_pos_right hn hb

section Widths
variable {xs : List Word} {ps : List (Word × Word)}

theorem natAbs_sumS1_lt (h : xs.length < 2 ^ 32) : (sumS1 xs).natAbs < 2 ^ 309 := by
  refine lt_of_le_of_lt (natAbs_sum_le_sum_natAbs _) ?_
  rw [List.map_map]
  calc _ < 2 ^ 32 * 2 ^ 277 :=
        sum_map_filter_lt h (by positivity) fun _ hx => natAbs_intOf_le (of_decide_eq_true hx)
    _ = 2 ^ 309 := by rw [← pow_add]

theorem sumS2_lt (h : xs.length < 2 ^ 32) : sumS2 xs < 2 ^ 586 :=
  calc sumS2 xs < 2 ^ 32 * (2 ^ 277) ^ 2 :=
        sum_map_filter_lt h (by positivity) fun _ hx =>
          Nat.pow_le_pow_left (natAbs_intOf_le (of_decide_eq_true hx)) 2
    _ = 2 ^ 586 := by rw [← pow_mul, ← pow_add]

/-- The difference of two finite words needs one bit more than a word. -/
theorem natAbs_intOf_sub_le {o c : Word} (ho : IsFinite o) (hc : IsFinite c) :
    (intOf o - intOf c).natAbs ≤ 2 ^ 278 :=
  calc (intOf o - intOf c).natAbs ≤ (intOf o).natAbs + (intOf c).natAbs := Int.natAbs_sub_le _ _
    _ ≤ 2 ^ 277 + 2 ^ 277 := Nat.add_le_add (natAbs_intOf_le ho) (natAbs_intOf_le hc)
    _ = 2 ^ 278 := by rw [← two_mul, ← pow_succ']

theorem sumSd_lt (h : ps.length < 2 ^ 32) : sumSd ps < 2 ^ 588 :=
  calc sumSd ps < 2 ^ 32 * (2 ^ 278) ^ 2 :=
        sum_map_filter_lt h (by positivity) fun _ hp =>
          have ⟨ho, hc⟩ := of_decide_eq_true hp
          Nat.pow_le_pow_left (natAbs_intOf_sub_le ho hc) 2
    _ = 2 ^ 588 := by rw [← pow_mul, ← pow_add]

end Widths

/-! What each command writes (R39). -/

/-- A `k` outside 0 to 31 leaves `K` and `MASK` as they were (R101). -/
theorem UnitC.start_of_not_validK {k : Int} (h : ¬ ValidK k) (c : UnitC) :
    c.start k = (c.closed, ⟨.error .invalidParameter, 0⟩) := if_neg h

/-- Unequal lengths leave every element of unit M but `M_STATE` as it was (R140). -/
theorem UnitM.start_of_ne {lenO lenC : Word} (h : lenO ≠ lenC) (m : UnitM) :
    m.start lenO lenC = (m.closed, ⟨.error .lengthMismatch, 0⟩) := if_neg h

/-- MPUSH writes neither `M_STATE` nor `M_LEN` (R141). -/
theorem UnitM.accumulate_frame (m : UnitM) (o c : Word) :
    (m.accumulate o c).1.state = m.state ∧ (m.accumulate o c).1.len = m.len := by
  unfold UnitM.accumulate
  split
  · exact ⟨UnitM.push_state m o c, UnitM.push_len m o c⟩
  · exact ⟨rfl, rfl⟩

/-! The obligations. -/

/-- Settles O48: what a command writes of its unit keeps that unit's invariant, and a reset leaves no job open. -/
theorem stepKeepsTheInvariants : Obligations.StepKeepsTheInvariants := by
  intro s t h hstep
  obtain ⟨-, rfl⟩ | ⟨w, rest, i, -, -, he⟩ | ⟨w, rest, e, -, -, rfl⟩ | ⟨f, rest, -, rfl⟩ := step_cases hstep
  · exact h
  · exact exec_inv (s := { s with pending := rest }) h he
  · exact h
  · exact ⟨UnitC.inv_of_inactive rfl, UnitM.inv_of_idle rfl⟩

/-- Settles O24: the data of one pair more are what MPUSH makes of the data of the pairs. -/
theorem jobHoldsTheSumsOfItsPairs : Obligations.JobHoldsTheSumsOfItsPairs := by
  constructor
  · intro len s
    refine ⟨_, exec_of_unitM rfl s, ?_⟩
    show (s.m.start len len).1 = jobOf len []
    rw [UnitM.start, if_pos rfl, jobOf_nil]
  · intro len ps o c s hm hlt
    refine ⟨_, exec_of_unitM rfl s, ?_⟩
    show (s.m.accumulate o c).1 = jobOf len (ps ++ [(o, c)])
    rw [hm, UnitM.accumulate, if_pos (jobOf_takesPair hlt), jobOf_append_singleton]

/-- Settles O41: fewer than 2^32 terms, each bounded by the largest finite magnitude of R172. -/
theorem accumulatorsFitTheirWidths : Obligations.AccumulatorsFitTheirWidths := by
  intro len ps hle
  have hps : ps.length < 2 ^ 32 := lt_of_le_of_lt hle len.isLt
  have hO : (ps.map (·.1)).length < 2 ^ 32 := by rwa [List.length_map]
  have hC : (ps.map (·.2)).length < 2 ^ 32 := by rwa [List.length_map]
  exact ⟨sumSd_lt hps, natAbs_sumS1_lt hO, sumS2_lt hO, natAbs_sumS1_lt hC, sumS2_lt hC⟩

/-- Settles O50: a closed unit's data enter no answer, an open one's are equal, and a reset closes both units. -/
theorem unspecifiedDataIsUnobservable : Obligations.UnspecifiedDataIsUnobservable :=
  fun _ _ _ h hs => step_sameView h hs

/-- Settles O51: by induction on the number of steps, the two runs stay alike. -/
theorem runsDoNotSeeUnspecifiedData : Obligations.RunsDoNotSeeUnspecifiedData := by
  intro n s t h
  obtain ⟨s', t', hs, ht, -, -, -, hr⟩ := run_sameView n h
  exact ⟨s', t', hs, ht, hr⟩

/-- Settles O49: no job is open at reset. -/
theorem resetMeetsTheInvariants : Obligations.ResetMeetsTheInvariants :=
  ⟨UnitC.inv_of_inactive rfl, UnitM.inv_of_idle rfl⟩

/-- Settles O52: each command is a function of its own unit. -/
theorem unitsShareNoState : Obligations.UnitsShareNoState := by
  intro i s t h
  constructor <;> intro hi
  · rw [exec_of_unitC hi] at h
    cases h
    exact ⟨rfl, fun m => exec_of_unitC hi { s with m := m }⟩
  · rw [exec_of_unitM hi] at h
    cases h
    exact ⟨rfl, fun c => exec_of_unitM hi { s with c := c }⟩

/-- Settles O54: each command writes its own unit at most, and there what its function says. -/
theorem commandsWriteOnlyTheirElements : Obligations.CommandsWriteOnlyTheirElements := by
  intro i s t h
  obtain ⟨hi, rfl⟩ | ⟨hi, rfl⟩ := exec_cases h
  · refine ⟨rfl, rfl, ?_⟩
    cases i with
    | cstart k =>
      refine ⟨rfl, fun hk => ?_⟩
      show (s.c.start k).1.k = s.c.k ∧ (s.c.start k).1.mask = s.c.mask
      rw [UnitC.start_of_not_validK (by omega)]
      exact ⟨rfl, rfl⟩
    | cpush w => exact ⟨s.c.compress_fst w, rfl⟩
    | cend => exact ⟨rfl, rfl, rfl⟩
    | _ => cases hi
  · refine ⟨rfl, rfl, ?_⟩
    cases i with
    | mstart a b =>
      refine ⟨rfl, fun hne => ?_⟩
      show (s.m.start a b).1 = { s.m with state := (s.m.start a b).1.state }
      rw [UnitM.start_of_ne hne]
      rfl
    | mpush o c => exact ⟨rfl, s.m.accumulate_frame o c⟩
    | mend => exact ⟨rfl, rfl⟩
    | mreadMse | mreadMeanO | mreadMeanC | mreadVarO | mreadVarC | mreadStdO | mreadStdC =>
      exact ⟨rfl, s.m.read_fst _⟩
    | _ => cases hi

end Sys2Proof.Machine
end

section
/-! SUPPORT. Decoding an encoded command, and a presented command as a command word (spec/30_encoding.md R71 to R74,
R81, R83). -/

namespace Sys2Proof

/-- The word of an MREAD form decodes by its field `sel` alone (R74, R83). -/
theorem decode_assemble_mread {b : Word} (hb : b.extractLsb' 3 29 = 0) :
    decode (assemble 0x22 0 b) = decodeSel (b.extractLsb' 0 3) := by
  simp [decode, hb]

/-- The signed operand of CSTART survives its 32-bit field (R74 a). -/
theorem decode_encode_cstart {k : Int} (lo : -2 ^ 31 ≤ k) (hi : k < 2 ^ 31) :
    decode (encode (.cstart k)) = .ok (.cstart k) := by
  have hk : (BitVec.ofInt 32 k).toInt = k := BitVec.toInt_ofInt_eq_self (by decide) lo hi
  simp [encode, decode, hk]

/-- Decoding inverts encoding on every command that a word can carry (R71 to R74, R83). -/
theorem decode_encode {i : Instr} (h : i.wellFormed = true) : decode (encode i) = .ok i := by
  cases i with
  | cstart k =>
    obtain ⟨lo, hi⟩ := of_decide_eq_true h
    exact decode_encode_cstart lo hi
  | cpush w => simp [encode, decode]
  | cend | mend => simp [encode, decode]
  | mstart lenO lenC => simp [encode, decode]
  | mpush o c => simp [encode, decode]
  | mreadMse | mreadMeanO | mreadMeanC | mreadVarO | mreadVarC | mreadStdO | mreadStdC =>
    exact decode_assemble_mread (by decide)

/-- All 72 bits of a command word are the word. -/
@[simp] theorem wordOfTableBits_toNat (w : CmdWord) : wordOfTableBits 72 w.toNat = w := by
  rw [wordOfTableBits, Nat.mod_eq_of_lt w.isLt, BitVec.ofNat_toNat, BitVec.setWidth_eq]

end Sys2Proof
end

section
/-! PROOFS. The family of spec/20_memory.md: the channel to the host, the order of the two units' commands, and the
obligations O53, O7, O8 and O58. -/

namespace Sys2Proof.Machine

/-! What a command answers, read off its unit's function (R62). -/

section Answers
variable {i : Instr} {s t : State} {r : Response}

/-- The next state and the one response of a command of unit C. -/
theorem answers_iff_of_unitC (hi : ofUnitC i = true) :
    Answers s i t r ↔ t = s.answerC (UnitC.run i s.c) ∧ r = (UnitC.run i s.c).2 := by
  rw [Answers, exec_of_unitC hi, Host.Outcome.next.injEq, eq_comm]
  refine and_congr_right fun ht => ?_
  subst ht
  simp [eq_comm]

/-- The next state and the one response of a command of unit M. -/
theorem answers_iff_of_unitM (hi : ofUnitC i = false) :
    Answers s i t r ↔ t = s.answerM (UnitM.run i s.m) ∧ r = (UnitM.run i s.m).2 := by
  rw [Answers, exec_of_unitM hi, Host.Outcome.next.injEq, eq_comm]
  refine and_congr_right fun ht => ?_
  subst ht
  simp [eq_comm]

/-- A command of unit C that leaves unit C as it is answers the same again. -/
theorem answers_again_of_unitC (hi : ofUnitC i = true) (keep : (UnitC.run i s.c).1 = s.c) (h : Answers s i t r) :
    t.c = s.c ∧ t.m = s.m ∧ ∃ u, Answers t i u r := by
  obtain ⟨rfl, rfl⟩ := (answers_iff_of_unitC hi).mp h
  refine ⟨keep, rfl, _, (answers_iff_of_unitC hi).mpr ⟨rfl, ?_⟩⟩
  rw [State.answerC_c, keep]

/-- A command of unit M that leaves unit M as it is answers the same again. -/
theorem answers_again_of_unitM (hi : ofUnitC i = false) (keep : (UnitM.run i s.m).1 = s.m) (h : Answers s i t r) :
    t.c = s.c ∧ t.m = s.m ∧ ∃ u, Answers t i u r := by
  obtain ⟨rfl, rfl⟩ := (answers_iff_of_unitM hi).mp h
  refine ⟨rfl, keep, _, (answers_iff_of_unitM hi).mpr ⟨rfl, ?_⟩⟩
  rw [State.answerM_m, keep]

end Answers

/-- The MREAD forms are commands of unit M that write nothing of it (R143). -/
theorem unitM_run_of_mem_allReads {i : Instr} (hi : i ∈ allReads) (m : UnitM) :
    ofUnitC i = false ∧ (UnitM.run i m).1 = m := by
  cases i with
  | mreadMse | mreadMeanO | mreadMeanC | mreadVarO | mreadVarC | mreadStdO | mreadStdC => exact ⟨rfl, m.read_fst _⟩
  | _ => simp [allReads] at hi

/-- A presented word, legal or not, is taken and gets exactly one response (R50, R62). -/
theorem step_answers_of_present {s : State} {w : CmdWord} {rest : List HostEvent}
    (hp : s.pending = .present w :: rest) :
    ∃ t r, step s = .next t ∧ t.responses = s.responses ++ [r] ∧ t.pending = rest ∧ t.freeIndex = s.freeIndex := by
  cases hd : decode w with
  | ok i =>
    rw [step_of_present_ok hp hd]
    exact exec_answers i { s with pending := rest }
  | error e => exact ⟨_, ⟨.error .illegalCommand, 0⟩, step_of_present_error hp hd, rfl, rfl, rfl⟩

/-! The obligations. -/

/-- Settles O53: each command is a function of its own unit, so the other command does not change its answer or what it
writes. -/
theorem commandsOfTheTwoUnitsCommute : Obligations.CommandsOfTheTwoUnitsCommute := by
  intro i j s hi hj
  exact ⟨_, _, _, _, (UnitC.run i s.c).2, (UnitM.run j s.m).2,
    exec_of_unitC hi s, exec_of_unitM hj (s.answerC (UnitC.run i s.c)),
    exec_of_unitM hj s, exec_of_unitC hi (s.answerM (UnitM.run j s.m)),
    rfl, rfl, by simp, by simp⟩

/-- Settles O7: a presented legal word is executed, and the word of a well-formed command decodes to it. -/
theorem stepRunsTheDecodedCommand : Obligations.StepRunsTheDecodedCommand := by
  refine ⟨fun s w rest i hp hd => step_of_present_ok hp hd, fun s i hw => ?_⟩
  have hp : (s.withFetchWord 72 (encode i).toNat).pending = .present (encode i) :: s.pending := by
    simp [State.withFetchWord]
  exact step_of_present_ok hp (decode_encode hw)

/-- Settles O8, by cases on the host's next event. -/
theorem everyEventIsTakenAndAnswered : Obligations.EveryEventIsTakenAndAnswered := by
  intro s
  cases hp : s.pending with
  | nil => exact ⟨s, step_of_pending_nil hp, rfl⟩
  | cons ev rest =>
    cases ev with
    | present w =>
      obtain ⟨t, r, hs, hr, ht, -⟩ := step_answers_of_present hp
      exact ⟨t, hs, ht, r, hr⟩
    | assertReset f => exact ⟨_, step_of_assertReset hp, rfl, rfl⟩

/-- Settles O58: CPUSH leaves unit C, and each MREAD form unit M, as the next asking finds it. -/
theorem readingTwiceAnswersTheSame : Obligations.ReadingTwiceAnswersTheSame := by
  rintro i s t r (hi | ⟨w, rfl⟩) h
  · obtain ⟨hM, keep⟩ := unitM_run_of_mem_allReads hi s.m
    exact answers_again_of_unitM hM keep h
  · exact answers_again_of_unitC rfl (s.c.compress_fst w) h

end Sys2Proof.Machine
end

section
/-! SUPPORT. The decoder opcode by opcode, decoding as the inverse of encoding, and the rows of spec/opcode_table.json
(spec/30_encoding.md R71 to R75, R81, R83). -/

namespace Sys2Proof.Machine

/-! The decoder, opcode by opcode (R73, R75). -/

/-- An opcode is one of the seven, or none of them (R75 a). -/
theorem opcode_cases (op : BitVec 8) :
    op = 0x10 ∨ op = 0x11 ∨ op = 0x12 ∨ op = 0x20 ∨ op = 0x21 ∨ op = 0x22 ∨ op = 0x23 ∨
      op ∉ [0x10, 0x11, 0x12, 0x20, 0x21, 0x22, 0x23] := by
  simp only [List.mem_cons, List.not_mem_nil, or_false]
  tauto

/-- A command word is assembled from its fields (R71). -/
theorem exists_eq_assemble (w : CmdWord) : ∃ op a b, w = assemble op a b :=
  ⟨_, _, _, (assemble_fields w).symm⟩

section DecodeByOpcode
variable (a b : Word)

theorem decode_opCstart :
    decode (assemble 0x10 a b) = if a = 0 then .ok (.cstart b.toInt) else .error .reservedNotZero := by
  simp [decode]

theorem decode_opCpush :
    decode (assemble 0x11 a b) = if a = 0 then .ok (.cpush b) else .error .reservedNotZero := by
  simp [decode]

theorem decode_opCend :
    decode (assemble 0x12 a b) = if a = 0 ∧ b = 0 then .ok .cend else .error .reservedNotZero := by
  simp [decode]

theorem decode_opMstart : decode (assemble 0x20 a b) = .ok (.mstart a b) := by
  simp [decode]

theorem decode_opMpush : decode (assemble 0x21 a b) = .ok (.mpush a b) := by
  simp [decode]

theorem decode_opMread :
    decode (assemble 0x22 a b) =
      if a = 0 then
        if b.extractLsb' 3 29 = 0 then decodeSel (b.extractLsb' 0 3) else .error .mreadHighBits
      else .error .reservedNotZero := by
  simp [decode]

theorem decode_opMend :
    decode (assemble 0x23 a b) = if a = 0 ∧ b = 0 then .ok .mend else .error .reservedNotZero := by
  simp [decode]

theorem decode_opUnknown {op : BitVec 8} (h : op ∉ [0x10, 0x11, 0x12, 0x20, 0x21, 0x22, 0x23]) :
    decode (assemble op a b) = .error .unknownOpcode := by
  simp only [List.mem_cons, List.not_mem_nil, or_false, not_or] at h
  obtain ⟨h10, h11, h12, h20, h21, h22, h23⟩ := h
  rw [decode, fieldOp_assemble, if_neg h10, if_neg h11, if_neg h12, if_neg h20, if_neg h21, if_neg h22, if_neg h23]

end DecodeByOpcode

/-! The MREAD forms (R74 d, R83). -/

/-- `sel` selects the form of that number, and 7 selects none. -/
theorem decodeSel_toOption : ∀ sel : BitVec 3, (decodeSel sel).toOption = allReads[sel.toNat]? := by decide

/-- The form of number `sel` is well formed, and its field `B` is the number `sel`. -/
theorem encode_of_getElem?_allReads : ∀ sel : BitVec 3, ∀ i ∈ allReads[sel.toNat]?,
    i.wellFormed = true ∧ encode i = assemble 0x22 0 (sel.setWidth 32) := by decide

/-- The number of a form is the low three bits of its word. -/
theorem getElem?_allReads_of_encode : ∀ i ∈ allReads, allReads[((encode i).extractLsb' 0 3).toNat]? = some i := by
  decide

theorem encode_of_decodeSel {sel : BitVec 3} {i : Instr} (h : decodeSel sel = .ok i) :
    i.wellFormed = true ∧ encode i = assemble 0x22 0 (sel.setWidth 32) := by
  refine encode_of_getElem?_allReads sel i ?_
  rw [← decodeSel_toOption, h]
  rfl

theorem exists_eq_error_iff_toOption {ε α : Type} (x : Except ε α) : (∃ e, x = .error e) ↔ x.toOption = none := by
  cases x <;> simp [Except.toOption]

theorem decodeSel_error_iff (sel : BitVec 3) : (∃ e, decodeSel sel = .error e) ↔ sel = 7 := by
  rw [exists_eq_error_iff_toOption, decodeSel_toOption]
  revert sel
  decide

/-- A word whose bits above the low three are zero is its low three bits. -/
theorem setWidth_low_of_high_eq_zero {b : Word} (h : b.extractLsb' 3 29 = 0) :
    (b.extractLsb' 0 3).setWidth 32 = b :=
  calc (b.extractLsb' 0 3).setWidth 32
      = (0 : BitVec 29) ++ b.extractLsb' 0 3 := BitVec.setWidth_eq_append (by decide)
    _ = b.extractLsb' 3 29 ++ b.extractLsb' 0 3 := by rw [h]
    _ = b := BitVec.extractLsb'_append_extractLsb' (w := 29)

/-! The decoder as the inverse of the encoder (R73, R75, R81). -/

theorem wellFormed_cstart_toInt (b : Word) : (Instr.cstart b.toInt).wellFormed = true :=
  decide_eq_true ⟨b.le_toInt, b.toInt_lt⟩

/-- A legal word is the word of a well-formed command. -/
theorem encode_of_decode {w : CmdWord} {i : Instr} (h : decode w = .ok i) : i.wellFormed = true ∧ encode i = w := by
  obtain ⟨op, a, b, rfl⟩ := exists_eq_assemble w
  rcases opcode_cases op with rfl | rfl | rfl | rfl | rfl | rfl | rfl | unknown
  · rw [decode_opCstart] at h
    split at h <;> cases h
    next ha => exact ⟨wellFormed_cstart_toInt b, by rw [encode, BitVec.ofInt_toInt, ha]⟩
  · rw [decode_opCpush] at h
    split at h <;> cases h
    next ha => exact ⟨rfl, by rw [encode, ha]⟩
  · rw [decode_opCend] at h
    split at h <;> cases h
    next hab =>
      obtain ⟨rfl, rfl⟩ := hab
      exact ⟨rfl, rfl⟩
  · rw [decode_opMstart] at h
    cases h
    exact ⟨rfl, rfl⟩
  · rw [decode_opMpush] at h
    cases h
    exact ⟨rfl, rfl⟩
  · rw [decode_opMread] at h
    split_ifs at h with ha hb
    obtain ⟨hwf, henc⟩ := encode_of_decodeSel h
    exact ⟨hwf, by rw [henc, setWidth_low_of_high_eq_zero hb, ha]⟩
  · rw [decode_opMend] at h
    split at h <;> cases h
    next hab =>
      obtain ⟨rfl, rfl⟩ := hab
      exact ⟨rfl, rfl⟩
  · rw [decode_opUnknown a b unknown] at h
    cases h

/-- `k` is field `B` as a signed integer (R74 a). -/
theorem toInt_fieldB_of_decode_cstart {w : CmdWord} {k : Int} (h : decode w = .ok (.cstart k)) :
    (fieldB w).toInt = k := by
  obtain ⟨hwf, rfl⟩ := encode_of_decode h
  obtain ⟨lo, hi⟩ := of_decide_eq_true hwf
  rw [encode, fieldB_assemble]
  exact BitVec.toInt_ofInt_eq_self (by decide) lo hi

theorem exists_ite_eq_error_iff {ε α : Type} {p : Prop} [Decidable p] (x : Except ε α) (e : ε) :
    (∃ e', (if p then x else .error e) = .error e') ↔ ¬ p ∨ ∃ e', x = .error e' := by
  by_cases hp : p <;> simp [hp]

/-- The illegal words are those of R75's clauses. -/
theorem decode_error_iff (w : CmdWord) : (∃ e, decode w = .error e) ↔
    fieldOp w ∉ [0x10, 0x11, 0x12, 0x20, 0x21, 0x22, 0x23] ∨
    (fieldOp w ∈ [0x10, 0x11, 0x12, 0x22, 0x23] ∧ fieldA w ≠ 0) ∨
    (fieldOp w ∈ [0x12, 0x23] ∧ fieldB w ≠ 0) ∨
    (fieldOp w = 0x22 ∧ (fieldB w).extractLsb' 3 29 ≠ 0) ∨
    (fieldOp w = 0x22 ∧ (fieldB w).extractLsb' 0 3 = 7) := by
  obtain ⟨op, a, b, rfl⟩ := exists_eq_assemble w
  rw [fieldOp_assemble, fieldA_assemble, fieldB_assemble]
  rcases opcode_cases op with rfl | rfl | rfl | rfl | rfl | rfl | rfl | unknown
  · rw [decode_opCstart, exists_ite_eq_error_iff]; simp
  · rw [decode_opCpush, exists_ite_eq_error_iff]; simp
  · rw [decode_opCend, exists_ite_eq_error_iff, not_and_or]; simp
  · rw [decode_opMstart]; simp
  · rw [decode_opMpush]; simp
  · rw [decode_opMread, exists_ite_eq_error_iff, exists_ite_eq_error_iff, decodeSel_error_iff]; simp
  · rw [decode_opMend, exists_ite_eq_error_iff, not_and_or]; simp
  · rw [decode_opUnknown a b unknown]
    exact ⟨fun _ => .inl unknown, fun _ => ⟨_, rfl⟩⟩

/-! The rows of spec/opcode_table.json (R81). -/

theorem opcodeRow_statement (i : Instr) : Laws.OpcodeRow.Statement i := by
  cases i with
  | cstart k => exact Laws.OpcodeRow.cstart k
  | cpush w => exact Laws.OpcodeRow.cpush w
  | cend => exact Laws.OpcodeRow.cend
  | mstart lenO lenC => exact Laws.OpcodeRow.mstart lenO lenC
  | mpush o c => exact Laws.OpcodeRow.mpush o c
  | mreadMse => exact Laws.OpcodeRow.mreadMse
  | mreadMeanO => exact Laws.OpcodeRow.mreadMeanO
  | mreadMeanC => exact Laws.OpcodeRow.mreadMeanC
  | mreadVarO => exact Laws.OpcodeRow.mreadVarO
  | mreadVarC => exact Laws.OpcodeRow.mreadVarC
  | mreadStdO => exact Laws.OpcodeRow.mreadStdO
  | mreadStdC => exact Laws.OpcodeRow.mreadStdC
  | mend => exact Laws.OpcodeRow.mend

/-- A word in row CSTART or CPUSH has that row's opcode, and field `A` zero. -/
theorem eq_assemble_of_maskOpA {w : CmdWord} {op : BitVec 8}
    (h : w &&& 0xFFFFFFFFFF00000000 = assemble op 0 0) : w = assemble op 0 (fieldB w) := by
  obtain ⟨op', a, b, rfl⟩ := exists_eq_assemble w
  have mask : (0xFFFFFFFFFF00000000 : CmdWord) = assemble (BitVec.allOnes 8) (BitVec.allOnes 32) 0 := by decide
  rw [mask, Laws.assemble_and, BitVec.and_allOnes, BitVec.and_allOnes] at h
  have hop : op' = op := by simpa using congrArg fieldOp h
  have ha : a = 0 := by simpa using congrArg fieldA h
  rw [fieldB_assemble, hop, ha]

/-- A word in row MSTART or MPUSH has that row's opcode. -/
theorem eq_assemble_of_maskOp {w : CmdWord} {op : BitVec 8}
    (h : w &&& 0xFF0000000000000000 = assemble op 0 0) : w = assemble op (fieldA w) (fieldB w) := by
  obtain ⟨op', a, b, rfl⟩ := exists_eq_assemble w
  rw [Laws.assemble_and_op] at h
  have hop : op' = op := by simpa using congrArg fieldOp h
  rw [fieldA_assemble, fieldB_assemble, hop]

/-- Every word in the row is legal, with the row's mnemonic. -/
def RowIsLegal (r : OpcodeRow) : Prop :=
  ∀ w : CmdWord, w &&& r.mask = r.pattern → (decode w).toOption.map Instr.mnemonic = some r.mnemonic

/-- A row with no operand holds one word. -/
theorem rowIsLegal_of_decode {name : String} {pattern : CmdWord}
    (h : (decode pattern).toOption.map Instr.mnemonic = some name) :
    RowIsLegal ⟨name, pattern, 0xFFFFFFFFFFFFFFFFFF⟩ := by
  intro w hw
  have : w = pattern := (BitVec.and_allOnes (x := w)).symm.trans hw
  rwa [this]

theorem rowIsLegal_cstart : RowIsLegal ⟨"CSTART", 0x100000000000000000, 0xFFFFFFFFFF00000000⟩ := by
  intro w hw
  rw [eq_assemble_of_maskOpA (op := 0x10) hw, decode_opCstart]
  rfl

theorem rowIsLegal_cpush : RowIsLegal ⟨"CPUSH", 0x110000000000000000, 0xFFFFFFFFFF00000000⟩ := by
  intro w hw
  rw [eq_assemble_of_maskOpA (op := 0x11) hw, decode_opCpush]
  rfl

theorem rowIsLegal_mstart : RowIsLegal ⟨"MSTART", 0x200000000000000000, 0xFF0000000000000000⟩ := by
  intro w hw
  rw [eq_assemble_of_maskOp (op := 0x20) hw, decode_opMstart]
  rfl

theorem rowIsLegal_mpush : RowIsLegal ⟨"MPUSH", 0x210000000000000000, 0xFF0000000000000000⟩ := by
  intro w hw
  rw [eq_assemble_of_maskOp (op := 0x21) hw, decode_opMpush]
  rfl

/-- The words of every row are legal: the rows with operands one by one, the others from their one word. -/
theorem rowIsLegal_of_mem : ∀ r ∈ opcodeTable, RowIsLegal r := by
  simp only [opcodeTable, List.forall_mem_cons, List.not_mem_nil, false_implies, implies_true, and_true]
  have fixed {name : String} {pattern : CmdWord} := rowIsLegal_of_decode (name := name) (pattern := pattern)
  exact ⟨rowIsLegal_cstart, rowIsLegal_cpush, fixed (by decide), rowIsLegal_mstart, rowIsLegal_mpush,
    fixed (by decide), fixed (by decide), fixed (by decide), fixed (by decide), fixed (by decide), fixed (by decide),
    fixed (by decide), fixed (by decide)⟩

/-- No two rows have the same mnemonic. -/
theorem row_eq_of_mnemonic_eq : ∀ r ∈ opcodeTable, ∀ q ∈ opcodeTable, r.mnemonic = q.mnemonic → r = q := by decide

/-- The rows are disjoint: the mnemonic decoded names the row. -/
theorem rows_disjoint {w : CmdWord} {r q : OpcodeRow} (hr : r ∈ opcodeTable) (hq : q ∈ opcodeTable)
    (hwr : w &&& r.mask = r.pattern) (hwq : w &&& q.mask = q.pattern) : r = q :=
  row_eq_of_mnemonic_eq r hr q hq <|
    Option.some.inj ((rowIsLegal_of_mem r hr w hwr).symm.trans (rowIsLegal_of_mem q hq w hwq))

/-- A word in no row is illegal. -/
theorem decode_toOption_of_no_row {w : CmdWord} (h : ∀ r ∈ opcodeTable, w &&& r.mask ≠ r.pattern) :
    (decode w).toOption = none := by
  cases hd : decode w with
  | error e => rfl
  | ok i =>
    obtain ⟨r, hr, -, hrow⟩ := opcodeRow_statement i
    rw [(encode_of_decode hd).2] at hrow
    exact absurd hrow (h r hr)

end Sys2Proof.Machine
end

section
/-! SUPPORT. What a command answers: its guard, its one error and its payload (spec/30_encoding.md R76, R77). -/

namespace Sys2Proof.Machine

/-- The command is answered OK in this state: its operands and the job state are what R77 asks. -/
def State.Accepts (s : State) : Instr → Prop
  | .cstart k => ValidK k
  | .cpush _ => s.c.active = true
  | .mstart lenO lenC => lenO = lenC
  | .mpush _ _ => s.m.TakesPair
  | .mreadMse | .mreadMeanO | .mreadMeanC | .mreadVarO | .mreadVarC | .mreadStdO | .mreadStdC => s.m.Complete
  | .cend | .mend => True

/-- The one error the command can be answered with (R77); CEND and MEND have none, and their value is not used. -/
def errorOf : Instr → ErrorCode
  | .cstart _ => .invalidParameter
  | .mstart _ _ => .lengthMismatch
  | _ => .protocol

/-- The payload of the command's answer where it is OK (R76). -/
def State.payloadOf (s : State) : Instr → Double
  | .cpush w => (w &&& s.c.mask).setWidth 64
  | .mreadMse => s.m.mse
  | .mreadMeanO => s.m.o.mean s.m.n
  | .mreadMeanC => s.m.c.mean s.m.n
  | .mreadVarO => s.m.o.var s.m.n
  | .mreadVarC => s.m.c.var s.m.n
  | .mreadStdO => s.m.o.std s.m.n
  | .mreadStdC => s.m.c.std s.m.n
  | _ => 0

/-- The two answers of a command with guard `p`: OK with its payload, or its error with payload 0. -/
abbrev Response.Is (r : Response) (p : Prop) (payload : Double) (e : ErrorCode) : Prop :=
  (p ∧ r = ⟨.ok, payload⟩) ∨ (¬ p ∧ r = ⟨.error e, 0⟩)

theorem Response.is_of_ite {α : Type} {p : Prop} [Decidable p] (a b : α) (payload : Double) (e : ErrorCode) :
    (if p then (a, (⟨.ok, payload⟩ : Response)) else (b, ⟨.error e, 0⟩)).2.Is p payload e := by
  split
  next h => exact .inl ⟨h, rfl⟩
  next h => exact .inr ⟨h, rfl⟩

theorem UnitC.start_snd (c : UnitC) (k : Int) : (c.start k).2.Is (ValidK k) 0 .invalidParameter :=
  Response.is_of_ite ..

theorem UnitC.compress_snd (c : UnitC) (w : Word) :
    (c.compress w).2.Is (c.active = true) ((w &&& c.mask).setWidth 64) .protocol :=
  Response.is_of_ite ..

theorem UnitM.start_snd (m : UnitM) (lenO lenC : Word) : (m.start lenO lenC).2.Is (lenO = lenC) 0 .lengthMismatch :=
  Response.is_of_ite ..

theorem UnitM.accumulate_snd (m : UnitM) (o c : Word) : (m.accumulate o c).2.Is m.TakesPair 0 .protocol :=
  Response.is_of_ite ..

theorem UnitM.read_snd (m : UnitM) (result : Double) : (m.read result).2.Is m.Complete result .protocol :=
  Response.is_of_ite ..

section Answer
variable {i : Instr} {s t : State} {r : Response}

/-- Every command is answered OK with its payload, or with its one error and payload 0. -/
theorem response_of_answers (h : Answers s i t r) : r.Is (s.Accepts i) (s.payloadOf i) (errorOf i) := by
  cases i with
  | cstart k => obtain ⟨-, rfl⟩ := (answers_iff_of_unitC rfl).mp h; exact s.c.start_snd k
  | cpush w => obtain ⟨-, rfl⟩ := (answers_iff_of_unitC rfl).mp h; exact s.c.compress_snd w
  | cend => obtain ⟨-, rfl⟩ := (answers_iff_of_unitC rfl).mp h; exact .inl ⟨trivial, rfl⟩
  | mstart lenO lenC => obtain ⟨-, rfl⟩ := (answers_iff_of_unitM rfl).mp h; exact s.m.start_snd lenO lenC
  | mpush o c => obtain ⟨-, rfl⟩ := (answers_iff_of_unitM rfl).mp h; exact s.m.accumulate_snd o c
  | mend => obtain ⟨-, rfl⟩ := (answers_iff_of_unitM rfl).mp h; exact .inl ⟨trivial, rfl⟩
  | mreadMse | mreadMeanO | mreadMeanC | mreadVarO | mreadVarC | mreadStdO | mreadStdC =>
    obtain ⟨-, rfl⟩ := (answers_iff_of_unitM rfl).mp h; exact s.m.read_snd _

/-- A command is answered an error exactly when it is not accepted, and then its own. -/
theorem status_eq_error_iff (h : Answers s i t r) (e : ErrorCode) :
    r.status = .error e ↔ ¬ s.Accepts i ∧ errorOf i = e := by
  rcases response_of_answers h with ⟨hp, rfl⟩ | ⟨hp, rfl⟩
  all_goals simp [hp]

end Answer

theorem not_validK_iff (k : Int) : ¬ ValidK k ↔ k < 0 ∨ 31 < k := by omega

theorem MState.not_active_iff (x : MState) : ¬ x = .active ↔ x = .idle := by cases x <;> decide

theorem UnitM.not_takesPair_iff (m : UnitM) : ¬ m.TakesPair ↔ m.state = .idle ∨ m.count = m.len := by
  rw [not_and_or, not_not, MState.not_active_iff]

theorem UnitM.not_complete_iff (m : UnitM) : ¬ m.Complete ↔ m.state = .idle ∨ m.count ≠ m.len := by
  rw [not_and_or, MState.not_active_iff]

/-! The rows of R77, command by command. -/

section Status
variable (s : State) (i : Instr)

/-- No command is answered ILLEGAL_COMMAND: that is for the words that decode to none (R204). -/
theorem errorOf_ne_illegalCommand : errorOf i ≠ .illegalCommand := by cases i <;> exact nofun

theorem refused_invalidParameter_iff : ¬ s.Accepts i ∧ errorOf i = .invalidParameter ↔
    ∃ k, i = .cstart k ∧ (k < 0 ∨ 31 < k) := by
  cases i with
  | cstart k => simp [State.Accepts, errorOf, not_validK_iff, -not_and]
  | _ => simp [errorOf]

theorem refused_lengthMismatch_iff : ¬ s.Accepts i ∧ errorOf i = .lengthMismatch ↔
    ∃ a b, i = .mstart a b ∧ a ≠ b := by
  cases i with
  | mstart a b => simp [State.Accepts, errorOf]
  | _ => simp [errorOf]

theorem refused_protocol_iff : ¬ s.Accepts i ∧ errorOf i = .protocol ↔
    (∃ x, i = .cpush x ∧ s.c.active = false) ∨
    (∃ o c, i = .mpush o c ∧ (s.m.state = .idle ∨ s.m.count = s.m.len)) ∨
    (∃ j ∈ allReads, i = j ∧ (s.m.state = .idle ∨ s.m.count ≠ s.m.len)) := by
  rw [← UnitM.not_complete_iff, ← UnitM.not_takesPair_iff]
  cases i with
  | cstart k | mstart a b => simp [errorOf, allReads]
  | cend | mend => simp [State.Accepts, allReads]
  | cpush x => simp [State.Accepts, errorOf, allReads]
  | mpush o c => simp [State.Accepts, errorOf, allReads]
  | mreadMse | mreadMeanO | mreadMeanC | mreadVarO | mreadVarC | mreadStdO | mreadStdC =>
    simp [State.Accepts, errorOf, allReads]

end Status

end Sys2Proof.Machine
end

section
/-! PROOFS. The family of spec/30_encoding.md: the obligations O1, O2, O3, O4, O5, O11, O6 and O10. -/

namespace Sys2Proof.Machine

/-- Settles O1: each constructor's word, decoded by its opcode. -/
theorem decodeOfEncode : Obligations.DecodeOfEncode := fun _ => decode_encode

/-- Settles O2, by cases on the opcode of the word. -/
theorem encodeOfDecode : Obligations.EncodeOfDecode := fun _ _ => encode_of_decode

/-- Settles O3: a word in a row has that row's mnemonic, so it is in no other row, and a legal word is in a row. -/
theorem decodeFollowsOpcodeTable : Obligations.DecodeFollowsOpcodeTable := by
  refine fun w => ⟨?_, fun r hr q hq => rows_disjoint hr hq⟩
  cases hf : opcodeTable.find? fun r => decide (w &&& r.mask = r.pattern) with
  | none =>
    rw [decode_toOption_of_no_row fun r hr => of_decide_eq_false (by simpa using List.find?_eq_none.mp hf r hr)]
    rfl
  | some r =>
    exact rowIsLegal_of_mem r (List.mem_of_find?_eq_some hf) w (by simpa using List.find?_some hf)

/-- Settles O4: a legal word is its command's encoding, whose fields are the operands. -/
theorem operandsAreWholeFields : Obligations.OperandsAreWholeFields := by
  refine fun w => ⟨fun k h => ?_, fun a b h => ?_, fun x h => ?_, fun o c h => ?_, fun i hi h => ?_⟩
  · rw [← toInt_fieldB_of_decode_cstart h, BitVec.toInt_eq_msb_cond]
    rfl
  · obtain ⟨-, rfl⟩ := encode_of_decode h
    exact ⟨(fieldA_assemble 0x20 a b).symm, (fieldB_assemble 0x20 a b).symm⟩
  · obtain ⟨-, rfl⟩ := encode_of_decode h
    exact (fieldB_assemble 0x11 0 x).symm
  · obtain ⟨-, rfl⟩ := encode_of_decode h
    exact ⟨(fieldA_assemble 0x21 o c).symm, (fieldB_assemble 0x21 o c).symm⟩
  · obtain ⟨-, rfl⟩ := encode_of_decode h
    exact getElem?_allReads_of_encode i hi

/-- Settles O5: the clauses are the decoder's, opcode by opcode, and a step on such a word is `State.raise`. -/
theorem illegalWordsAndTheirAnswer : Obligations.IllegalWordsAndTheirAnswer :=
  ⟨decode_error_iff, ⟨.unknownOpcode, by decide⟩, ⟨.unknownOpcode, by decide⟩,
    fun _ _ _ _ hp hd => step_of_present_error hp hd⟩

/-- Settles O11: a legal word is answered an error exactly when its command is not accepted. -/
theorem statusIsRaisedExactlyWhen : Obligations.StatusIsRaisedExactlyWhen := by
  refine ⟨⟨rfl, rfl, rfl, rfl, rfl⟩, fun s t w rest r hp hs hr => ?_⟩
  cases hd : decode w with
  | ok i =>
    have h : Answers { s with pending := rest } i t r := ⟨(step_of_present_ok hp hd).symm.trans hs, hr⟩
    simp only [status_eq_error_iff h, Except.ok.injEq]
    exact ⟨refused_invalidParameter_iff _ i, refused_lengthMismatch_iff _ i, refused_protocol_iff _ i,
      by simp [errorOf_ne_illegalCommand i]⟩
  | error e =>
    obtain rfl := Host.Outcome.next.inj ((step_of_present_error hp hd).symm.trans hs)
    obtain rfl : ⟨.error .illegalCommand, 0⟩ = r := by simpa using hr
    simp

/-- Settles O6: nine closed words, decoded by evaluation. -/
theorem sampleWordsDecode : Obligations.SampleWordsDecode := by
  unfold Obligations.SampleWordsDecode
  decide

/-- Settles O10: the word's fields are its two parts, and `response_of_answers` gives both payloads. -/
theorem responseWordAndPayload : Obligations.ResponseWordAndPayload := by
  refine ⟨fun r => ⟨BitVec.extractLsb'_append_eq_left, BitVec.extractLsb'_append_eq_right⟩, fun i s t r h => ?_⟩
  rcases response_of_answers h with ⟨-, rfl⟩ | ⟨-, rfl⟩
  · exact ⟨fun hne => absurd rfl hne, fun _ => by cases i <;> rfl⟩
  · exact ⟨fun _ => rfl, fun hok => by cases hok⟩

end Sys2Proof.Machine
end

section
/-! SUPPORT. The mask of unit C, bit by bit and field by field, and what masking does to a word's magnitude and value
(spec/40_bitmask_compressor.md R100, R107, R110; spec/42_numerics.md R170 to R172). -/

namespace Sys2Proof.Machine

/-! The mask itself (R100). -/

section Mask
variable (k : BitVec 5)

/-- Bit `i` of the mask is 1 exactly from `k` up (R100). -/
theorem getLsbD_maskOf {i : Nat} (hi : i < 32) : (maskOf k).getLsbD i = decide (k.toNat ≤ i) := by
  have hk : k.toNat < 32 := k.isLt
  rw [maskOf, BitVec.getLsbD_ofNat, Nat.one_shiftLeft, Nat.testBit_shiftLeft, Nat.testBit_two_pow_sub_one,
    Bool.eq_iff_iff]
  simp only [Bool.and_eq_true, decide_eq_true_eq]
  omega

/-- Any field of the mask: the `k` low bits of the word are clear, whichever of them the field holds (R107). -/
theorem extractLsb'_maskOf {start len : Nat} (h : start + len ≤ 32) :
    (maskOf k).extractLsb' start len = BitVec.allOnes len <<< (k.toNat - start) := by
  apply BitVec.eq_of_getLsbD_eq
  intro i hi
  rw [BitVec.getLsbD_extractLsb', getLsbD_maskOf k (by omega), BitVec.getLsbD_shiftLeft, BitVec.getLsbD_allOnes,
    Bool.eq_iff_iff]
  simp only [Bool.and_eq_true, Bool.not_eq_true', decide_eq_true_eq, decide_eq_false_iff_not]
  omega

/-- The mask is all ones shifted up by `k` (R100). -/
theorem maskOf_eq_shiftLeft : maskOf k = BitVec.allOnes 32 <<< k.toNat :=
  BitVec.extractLsb'_eq_self.symm.trans (extractLsb'_maskOf k (by decide))

/-- The mask's value (R100). -/
theorem maskOf_toNat : (maskOf k).toNat = 2 ^ 32 - 2 ^ k.toNat := by
  have hk : k.toNat ≤ 32 := k.isLt.le
  have hpos : 0 < 2 ^ k.toNat := Nat.two_pow_pos _
  have hval : (1 <<< (32 - k.toNat) - 1) <<< k.toNat = 2 ^ 32 - 2 ^ k.toNat := by
    rw [Nat.one_shiftLeft, Nat.shiftLeft_eq, Nat.sub_mul, ← pow_add, Nat.sub_add_cancel hk, one_mul]
  rw [maskOf, BitVec.toNat_ofNat, hval]
  exact Nat.mod_eq_of_lt (by omega)

theorem maskOf_zero : maskOf 0 = BitVec.allOnes 32 := maskOf_eq_shiftLeft 0

/-- Two masks together are that of the larger `k` (R109). -/
theorem maskOf_and_maskOf {j k l : BitVec 5} (hl : l.toNat = max j.toNat k.toNat) :
    maskOf j &&& maskOf k = maskOf l := by
  apply BitVec.eq_of_getLsbD_eq
  intro i hi
  rw [BitVec.getLsbD_and, getLsbD_maskOf j hi, getLsbD_maskOf k hi, getLsbD_maskOf l hi, hl, Bool.eq_iff_iff]
  simp only [Bool.and_eq_true, decide_eq_true_eq, max_le_iff]

/-- The mask keeps the sign (R107). -/
theorem signOf_maskOf : signOf (maskOf k) = true :=
  (getLsbD_maskOf k (by decide)).trans (decide_eq_true (Nat.le_of_lt_succ k.isLt))

/-- The exponent field of the mask: the `k - 23` low bits are clear, none for `k` up to 23 (R107). -/
theorem expoOf_maskOf : expoOf (maskOf k) = BitVec.allOnes 8 <<< (k.toNat - 23) := extractLsb'_maskOf k (by decide)

/-- The mantissa field of the mask: the `k` low bits are clear, all of them from `k = 23` on (R107). -/
theorem mantOf_maskOf : mantOf (maskOf k) = BitVec.allOnes 23 <<< k.toNat := extractLsb'_maskOf k (by decide)

end Mask

/-! The fields of a masked word (R107). -/

section Fields
variable (w : Word) (k : BitVec 5)

theorem signOf_mask : signOf (w &&& maskOf k) = signOf w := by
  have hk : (maskOf k).getLsbD 31 = true := signOf_maskOf k
  rw [signOf, BitVec.getLsbD_and, hk, Bool.and_true, signOf]

theorem expoOf_and_maskOf : expoOf (w &&& maskOf k) = expoOf w &&& (BitVec.allOnes 8 <<< (k.toNat - 23)) :=
  BitVec.extractLsb'_and.trans (congrArg (expoOf w &&& ·) (expoOf_maskOf k))

theorem mantOf_and_maskOf : mantOf (w &&& maskOf k) = mantOf w &&& (BitVec.allOnes 23 <<< k.toNat) :=
  BitVec.extractLsb'_and.trans (congrArg (mantOf w &&& ·) (mantOf_maskOf k))

theorem expoOf_mask : expoOf (w &&& maskOf k) = (expoOf w >>> (k.toNat - 23)) <<< (k.toNat - 23) :=
  (expoOf_and_maskOf w k).trans BitVec.shiftLeft_ushiftRight.symm

theorem mantOf_mask : mantOf (w &&& maskOf k) = (mantOf w >>> k.toNat) <<< k.toNat :=
  (mantOf_and_maskOf w k).trans BitVec.shiftLeft_ushiftRight.symm

variable {k}

theorem expoOf_mask_of_le (hk : k.toNat ≤ 23) : expoOf (w &&& maskOf k) = expoOf w := by
  rw [expoOf_and_maskOf, Nat.sub_eq_zero_of_le hk, BitVec.shiftLeft_zero, BitVec.and_allOnes]

theorem expoOf_mask_of_eq (hk : k.toNat = 31) : expoOf (w &&& maskOf k) = 0 := by
  rw [expoOf_mask, hk]
  exact BitVec.shiftLeft_eq_zero le_rfl

theorem mantOf_mask_of_ge (hk : 23 ≤ k.toNat) : mantOf (w &&& maskOf k) = 0 := by
  rw [mantOf_mask]
  exact BitVec.shiftLeft_eq_zero hk

theorem isZero_mask_of_eq (hk : k.toNat = 31) : IsZero (w &&& maskOf k) :=
  ⟨expoOf_mask_of_eq w hk, mantOf_mask_of_ge w (by omega)⟩

/-- Clearing bits cannot make `e = 255` (R106). -/
theorem isFinite_mask {w : Word} (hw : IsFinite w) : IsFinite (w &&& maskOf k) := by
  intro hc
  rw [expoOf_and_maskOf] at hc
  exact hw (BitVec.and_eq_allOnes_iff.mp hc).1

/-- A mask that reaches the exponent field makes every word finite (R106, 90_conflicts.md C1). -/
theorem isFinite_mask_of_gt (hk : 23 < k.toNat) : IsFinite (w &&& maskOf k) := by
  intro hc
  have hbit : (expoOf (w &&& maskOf k)).getLsbD 0 = true := by rw [hc]; rfl
  rw [expoOf_mask, BitVec.getLsbD_shiftLeft] at hbit
  simp [show 0 < k.toNat - 23 by omega] at hbit

/-- A zero exponent field stays zero. -/
theorem expoOf_mask_of_expoOf_eq_zero {w : Word} (he : expoOf w = 0) : expoOf (w &&& maskOf k) = 0 := by
  rw [expoOf_and_maskOf, he]
  exact BitVec.zero_and

/-- A zero mantissa field stays zero. -/
theorem mantOf_mask_of_mantOf_eq_zero {w : Word} (hf : mantOf w = 0) : mantOf (w &&& maskOf k) = 0 := by
  rw [mantOf_and_maskOf, hf]
  exact BitVec.zero_and

/-- A zero is its own masked word (R106). -/
theorem mask_of_isZero {w : Word} (hw : IsZero w) : w &&& maskOf k = w := by
  obtain ⟨he, hf⟩ := hw
  exact eq_of_fields (signOf_mask w k) ((expoOf_mask_of_expoOf_eq_zero he).trans he.symm)
    ((mantOf_mask_of_mantOf_eq_zero hf).trans hf.symm)

/-- An infinity is its own masked word while the exponent field is kept (R106). -/
theorem mask_of_isInf {w : Word} (hw : IsInf w) (hk : k.toNat ≤ 23) : w &&& maskOf k = w := by
  obtain ⟨-, hf⟩ := (isInf_iff w).mp hw
  exact eq_of_fields (signOf_mask w k) (expoOf_mask_of_le w hk) ((mantOf_mask_of_mantOf_eq_zero hf).trans hf.symm)

/-- Clearing its low bits takes a word down by their value. -/
theorem toNat_ushiftRight_shiftLeft_add_mod {v : Nat} (x : BitVec v) (n : Nat) :
    ((x >>> n) <<< n).toNat + x.toNat % 2 ^ n = x.toNat := by
  have hdiv : x.toNat / 2 ^ n * 2 ^ n + x.toNat % 2 ^ n = x.toNat := Nat.div_add_mod' _ _
  rw [BitVec.toNat_shiftLeft, BitVec.toNat_ushiftRight, Nat.shiftRight_eq_div_pow, Nat.shiftLeft_eq,
    Nat.mod_eq_of_lt (by have := x.isLt; omega), hdiv]

/-- The mantissa loses the word's `k` low bits (R110). -/
theorem mantOf_mask_add_mod (hk : k.toNat ≤ 23) :
    (mantOf (w &&& maskOf k)).toNat + w.toNat % 2 ^ k.toNat = (mantOf w).toNat := by
  have hlow : w.toNat % 2 ^ k.toNat = (mantOf w).toNat % 2 ^ k.toNat := by
    rw [mantOf, BitVec.extractLsb'_toNat, Nat.shiftRight_zero, Nat.mod_mod_of_dvd _ (pow_dvd_pow 2 hk)]
  rw [mantOf_mask, hlow, toNat_ushiftRight_shiftLeft_add_mod]

/-- A NaN stays one or becomes an infinity, as a set mantissa bit is kept or not (R106). -/
theorem mask_of_isNan {w : Word} (hw : IsNan w) (hk : k.toNat ≤ 22) :
    (IsNan (w &&& maskOf k) ∧ mantOf (w &&& maskOf k) = (mantOf w >>> k.toNat) <<< k.toNat) ∨
      (IsInf (w &&& maskOf k) ∧ (mantOf w).toNat < 2 ^ k.toNat) := by
  have he : expoOf (w &&& maskOf k) = 255 := (expoOf_mask_of_le w (by omega)).trans hw.1
  by_cases hf : mantOf (w &&& maskOf k) = 0
  · refine .inr ⟨(isInf_iff _).mpr ⟨he, hf⟩, ?_⟩
    have hlow : (mantOf w).toNat = w.toNat % 2 ^ k.toNat := by
      rw [← mantOf_mask_add_mod w (k := k) (by omega), hf]
      exact Nat.zero_add _
    rw [hlow]
    exact Nat.mod_lt _ (Nat.two_pow_pos _)
  · exact .inl ⟨⟨he, hf⟩, mantOf_mask w k⟩

end Fields

/-! The magnitude and the value of a masked word (R110, R172). -/

section Value
variable {a b w : Word} {k : BitVec 5}

/-- The magnitude without the case of a zero exponent field. -/
theorem magOf_eq (w : Word) :
    magOf w = ((if expoOf w = 0 then 0 else 2 ^ 23) + (mantOf w).toNat) * 2 ^ ((expoOf w).toNat - 1) := by
  unfold magOf
  split
  next h => rw [h]; simp
  next => rfl

/-- No larger fields, no larger magnitude. -/
theorem magOf_le_magOf (he : (expoOf a).toNat ≤ (expoOf b).toNat) (hf : (mantOf a).toNat ≤ (mantOf b).toNat) :
    magOf a ≤ magOf b := by
  have hbit : (if expoOf a = 0 then 0 else 2 ^ 23) ≤ if expoOf b = 0 then 0 else 2 ^ 23 := by
    by_cases hb : expoOf b = 0
    · have ha : expoOf a = 0 := BitVec.eq_of_toNat_eq (Nat.le_zero.mp (by simpa [hb] using he))
      rw [if_pos ha, if_pos hb]
    · rw [if_neg hb]
      split <;> omega
  rw [magOf_eq, magOf_eq]
  exact Nat.mul_le_mul (Nat.add_le_add hbit hf) (Nat.pow_le_pow_right (by decide) (Nat.sub_le_sub_right he 1))

/-- Masking never enlarges the magnitude (R110 a). -/
theorem magOf_mask_le (w : Word) (k : BitVec 5) : magOf (w &&& maskOf k) ≤ magOf w := by
  apply magOf_le_magOf
  · rw [expoOf_and_maskOf, BitVec.toNat_and]
    exact Nat.and_le_left
  · rw [mantOf_and_maskOf, BitVec.toNat_and]
    exact Nat.and_le_left

/-- Where the exponent field is kept, the magnitude falls by the cleared bits at the word's scale (R110 b). -/
theorem magOf_mask_add (w : Word) (hk : k.toNat ≤ 23) :
    magOf (w &&& maskOf k) + w.toNat % 2 ^ k.toNat * 2 ^ ((expoOf w).toNat - 1) = magOf w := by
  rw [magOf_eq, magOf_eq, expoOf_mask_of_le w hk, ← mantOf_mask_add_mod w hk]
  ring

/-- A significand has 24 bits (R172). -/
theorem magOf_lt (w : Word) : magOf w < 2 ^ 24 * 2 ^ ((expoOf w).toNat - 1) := by
  have hf : (mantOf w).toNat < 2 ^ 23 := (mantOf w).isLt
  rw [magOf_eq]
  apply Nat.mul_lt_mul_of_pos_right _ (Nat.two_pow_pos _)
  split <;> omega

/-- The unit of the last mantissa place, `2^(E - 23)`, in units of `2^-149` (R172). -/
theorem two_zpow_unbiasedOf (w : Word) :
    (2 : ℚ) ^ (unbiasedOf w - 23) = 2 ^ ((expoOf w).toNat - 1) / 2 ^ 149 := by
  have hexp : unbiasedOf w - 23 = (((expoOf w).toNat - 1 : ℕ) : ℤ) - (149 : ℕ) := by
    unfold unbiasedOf
    split
    next h => rw [h]; rfl
    next h =>
      have hpos : (expoOf w).toNat ≠ 0 := fun h0 => h (BitVec.eq_of_toNat_eq h0)
      omega
  rw [hexp, zpow_sub₀ two_ne_zero, zpow_natCast, zpow_natCast]

theorem abs_valOf (w : Word) : |valOf w| = (magOf w : ℚ) / 2 ^ 149 := by
  have habs : |(intOf w : ℚ)| = (magOf w : ℚ) := by
    rw [← Int.cast_abs, Int.abs_eq_natAbs, natAbs_intOf, Int.cast_natCast]
  rw [valOf, abs_div, habs, abs_of_pos (by positivity : (0 : ℚ) < 2 ^ 149)]

/-- Words of one sign are as far apart as their magnitudes. -/
theorem abs_valOf_sub (hs : signOf a = signOf b) {d : ℕ} (hd : magOf b + d = magOf a) :
    |valOf a - valOf b| = (d : ℚ) / 2 ^ 149 := by
  have hint : |(intOf a : ℚ) - intOf b| = d := by
    unfold intOf
    rw [hs, ← hd]
    split
    · push_cast
      rw [neg_sub_neg, sub_add_cancel_left, abs_neg, Nat.abs_cast]
    · push_cast
      rw [add_sub_cancel_left, Nat.abs_cast]
  rw [valOf, valOf, ← sub_div, abs_div, hint, abs_of_pos (by positivity : (0 : ℚ) < 2 ^ 149)]

/-- For `k` up to 23 the error is exactly the cleared bits (R110 b). -/
theorem abs_valOf_sub_mask (w : Word) (hk : k.toNat ≤ 23) :
    |valOf w - valOf (w &&& maskOf k)| =
      ((w.toNat % 2 ^ k.toNat : ℕ) : ℚ) * 2 ^ (unbiasedOf w - 23) := by
  rw [abs_valOf_sub (signOf_mask w k).symm (magOf_mask_add w hk), two_zpow_unbiasedOf, mul_div_assoc']
  push_cast
  rfl

/-- The error is at most the word's magnitude (R110 c). -/
theorem abs_valOf_sub_mask_le (w : Word) (k : BitVec 5) : |valOf w - valOf (w &&& maskOf k)| ≤ |valOf w| := by
  obtain ⟨d, hd⟩ := Nat.exists_eq_add_of_le (magOf_mask_le w k)
  rw [abs_valOf_sub (signOf_mask w k).symm hd.symm, abs_valOf, hd]
  gcongr
  omega

theorem abs_valOf_lt (w : Word) : |valOf w| < 2 ^ (unbiasedOf w + 1) := by
  have hmag : (magOf w : ℚ) < 2 ^ 24 * 2 ^ ((expoOf w).toNat - 1) := by exact_mod_cast magOf_lt w
  calc |valOf w| = (magOf w : ℚ) / 2 ^ 149 := abs_valOf w
    _ < 2 ^ 24 * 2 ^ ((expoOf w).toNat - 1) / 2 ^ 149 := by gcongr
    _ = 2 ^ (24 : ℤ) * 2 ^ (unbiasedOf w - 23) := by rw [two_zpow_unbiasedOf, mul_div_assoc]; norm_cast
    _ = 2 ^ (unbiasedOf w + 1) := by rw [← zpow_add₀ two_ne_zero]; congr 1; ring

/-- The error is below the place of bit `k` (R110 d): from the cleared bits up to `k = 23`, from the word's own
magnitude beyond. -/
theorem abs_valOf_sub_mask_lt (w : Word) (k : BitVec 5) :
    |valOf w - valOf (w &&& maskOf k)| < 2 ^ (unbiasedOf w - 23 + k.toNat) := by
  rcases Nat.lt_or_ge 23 k.toNat with hk | hk
  · calc |valOf w - valOf (w &&& maskOf k)| ≤ |valOf w| := abs_valOf_sub_mask_le w k
      _ < 2 ^ (unbiasedOf w + 1) := abs_valOf_lt w
      _ ≤ 2 ^ (unbiasedOf w - 23 + k.toNat) := zpow_le_zpow_right₀ one_le_two (by omega)
  · have hlow : ((w.toNat % 2 ^ k.toNat : ℕ) : ℚ) < 2 ^ k.toNat := by
      exact_mod_cast Nat.mod_lt w.toNat (Nat.two_pow_pos k.toNat)
    rw [abs_valOf_sub_mask w hk, zpow_add₀ two_ne_zero, zpow_natCast, mul_comm]
    gcongr

end Value

end Sys2Proof.Machine
end

section
/-! SUPPORT. What the host gets for one command, for a command list, and for COMPRESS (spec/30_encoding.md R80;
spec/40_bitmask_compressor.md R108). -/

namespace Sys2Proof.Machine

section Call
variable {s t u : State} {i : Instr} {rest : List Instr} {r : Response}

/-- A command the host presents is decoded and executed, and its response is what the host gets (R50, R62). -/
theorem ask_of_answers (hw : i.wellFormed = true) (h : Answers { s with pending := [] } i t r) :
    s.ask i = some (t, r) := by
  obtain ⟨hexec, hresp⟩ := h
  have hstep : step { s with pending := [.present (encode i)] } = .next t :=
    (step_of_present_ok rfl (decode_encode hw)).trans hexec
  simp [State.ask, hstep, hresp]

/-- What the host gets for a command of unit C is what the unit's function says. -/
theorem ask_of_unitC {c : UnitC} (hw : i.wellFormed = true) (hi : ofUnitC i = true)
    (hrun : UnitC.run i s.c = (c, r)) : s.ask i = some ({ s with pending := [] }.answerC (c, r), r) :=
  ask_of_answers hw ((answers_iff_of_unitC hi).mpr ⟨congrArg _ hrun.symm, (congrArg Prod.snd hrun).symm⟩)

@[simp] theorem call_nil (s : State) : s.call [] = some (s, .ok []) := rfl

/-- A response OK: the host goes on, and its payload comes first (R80). -/
theorem call_cons_of_ok {p : Double} {out : Except ErrorCode (List Double)} (h : s.ask i = some (t, ⟨.ok, p⟩))
    (hrest : t.call rest = some (u, out)) : s.call (i :: rest) = some (u, out.map (p :: ·)) := by
  simp [State.call, h, hrest]

/-- A response that is an error: the host stops there (R80). -/
theorem call_cons_of_error {e : ErrorCode} {p : Double} (h : s.ask i = some (t, ⟨.error e, p⟩)) :
    s.call (i :: rest) = some (t, .error e) := by
  simp [State.call, h]

end Call

/-- In an open job the pushes and the CEND all answer OK, each push the word masked with the job's mask (R102, R103). -/
theorem call_pushes (data : List Word) : ∀ s : State, s.c.active = true → ∃ t, t.m = s.m ∧ t.c.active = false ∧
    s.call (data.map .cpush ++ [.cend]) =
      some (t, .ok (data.map (fun w => (w &&& s.c.mask).setWidth 64) ++ [0])) := by
  induction data with
  | nil =>
    intro s _
    have hcend : UnitC.run .cend s.c = (s.c.closed, ⟨.ok, 0⟩) := rfl
    refine ⟨_, ?_, ?_, call_cons_of_ok (ask_of_unitC rfl rfl hcend) (call_nil _)⟩
    · rfl
    · rfl
  | cons w data ih =>
    intro s hs
    have hpush : UnitC.run (.cpush w) s.c = (s.c, ⟨.ok, (w &&& s.c.mask).setWidth 64⟩) := if_pos hs
    obtain ⟨t, hm, hc, hcall⟩ :=
      ih ({ s with pending := [] }.answerC (s.c, ⟨.ok, (w &&& s.c.mask).setWidth 64⟩)) hs
    exact ⟨t, hm, hc, call_cons_of_ok (ask_of_unitC rfl rfl hpush) hcall⟩

/-- The low 32 bits of the payloads between CSTART's and CEND's are the words the pushes answered (R80). -/
theorem low_words_of_payloads (words : List Word) (p q : Double) :
    (((p :: (words.map (·.setWidth 64) ++ [q])).drop 1).dropLast.map (·.setWidth 32)) = words := by
  have hlow : ∀ w : Word, (w.setWidth 64).setWidth 32 = w := fun w => by
    rw [BitVec.setWidth_setWidth_of_le w (by decide), BitVec.setWidth_eq]
  simp [Function.comp_def, hlow]

/-- COMPRESS with `k` from 0 to 31, from any state: the masked words in order (R108). -/
theorem compress_of_validK {k : Int} (hk : ValidK k) (s : State) (data : List Word) :
    ∃ t, t.m = s.m ∧ t.c.active = false ∧
      s.compress k data = some (t, .ok (data.map fun w => w &&& maskOf (BitVec.ofInt 5 k))) := by
  have hop : cstartOperand k = k := cstartOperand_of_fits (by omega) (by omega)
  have hstart : UnitC.run (.cstart (cstartOperand k)) s.c = (UnitC.opened (BitVec.ofInt 5 k), ⟨.ok, 0⟩) := by
    rw [hop]
    exact if_pos hk
  obtain ⟨t, hm, hc, hcall⟩ :=
    call_pushes data ({ s with pending := [] }.answerC (UnitC.opened (BitVec.ofInt 5 k), ⟨.ok, 0⟩)) rfl
  refine ⟨t, hm, hc, ?_⟩
  rw [State.compress, compressCommands,
    call_cons_of_ok (ask_of_unitC (cstartOperand_wellFormed k) rfl hstart) hcall]
  have hlow := low_words_of_payloads (data.map fun w => w &&& maskOf (BitVec.ofInt 5 k)) 0 0
  rw [List.map_map] at hlow
  exact congrArg (fun words => some (t, Except.ok words)) hlow

/-- COMPRESS with any other `k`, from any state: CSTART's INVALID_PARAMETER, whatever the buffer (R108). -/
theorem compress_of_not_validK {k : Int} (hk : ¬ ValidK k) (s : State) (data : List Word) :
    ∃ t, t.m = s.m ∧ t.c.active = false ∧ s.compress k data = some (t, .error .invalidParameter) := by
  have hstart : UnitC.run (.cstart (cstartOperand k)) s.c = (s.c.closed, ⟨.error .invalidParameter, 0⟩) :=
    UnitC.start_of_not_validK (mt (cstartOperand_legal_iff k).mp hk) s.c
  refine ⟨{ s with pending := [] }.answerC (s.c.closed, ⟨.error .invalidParameter, 0⟩), rfl, rfl, ?_⟩
  rw [State.compress, compressCommands,
    call_cons_of_error (ask_of_unitC (cstartOperand_wellFormed k) rfl hstart)]
  rfl

end Sys2Proof.Machine
end

section
/-! PROOFS. The family of spec/40_bitmask_compressor.md: the obligations O16 to O21 and O12 to O15. -/

namespace Sys2Proof.Machine

/-- Settles O16: two masks together are the mask of the larger `k`, which for one mask twice is itself. -/
theorem maskingIsIdempotent : Obligations.MaskingIsIdempotent := by
  intro w j k l hl
  rw [BitVec.and_assoc, BitVec.and_assoc, BitVec.and_self, maskOf_and_maskOf hl]
  exact ⟨rfl, rfl⟩

/-- Settles O17: each row is a field of the masked word, its low bits shifted out and back. -/
theorem maskTouchesFieldsByK : Obligations.MaskTouchesFieldsByK := by
  refine fun w k => ⟨signOf_mask w k, fun h => ?_, fun ⟨_, h⟩ => ?_, fun h => ?_, fun ⟨h, _⟩ => ?_, fun h => ?_⟩
  · obtain rfl : k = 0 := BitVec.eq_of_toNat_eq h
    rw [maskOf_zero, BitVec.and_allOnes]
    exact ⟨rfl, rfl⟩
  · exact ⟨expoOf_mask_of_le w (by omega), mantOf_mask w k⟩
  · exact ⟨expoOf_mask_of_le w h.le, mantOf_mask_of_ge w h.ge⟩
  · exact ⟨expoOf_mask w k, mantOf_mask_of_ge w (by omega)⟩
  · exact isZero_mask_of_eq w h

/-- Settles O18: the class of a masked word, read off its fields. -/
theorem maskOnSpecialInputs : Obligations.MaskOnSpecialInputs := by
  rintro w _ k rfl
  refine ⟨signOf_mask w k, isFinite_mask, mask_of_isZero, fun hsub => ?_, fun hnormal => ?_, mask_of_isInf,
    mask_of_isNan, fun hnan hk => ?_, fun hnonfinite => ?_⟩
  · have he : expoOf (w &&& maskOf k) = 0 := expoOf_mask_of_expoOf_eq_zero hsub.1
    exact ⟨he, fun _ => mantOf_mask w k, fun hk => ⟨he, mantOf_mask_of_ge w hk⟩⟩
  · refine ⟨fun hk => ?_, fun ⟨hk, _⟩ => ?_, isZero_mask_of_eq w⟩
    · have he : expoOf (w &&& maskOf k) = expoOf w := expoOf_mask_of_le w hk
      exact ⟨by rwa [IsNormal, he], he, magOf_mask_le w k⟩
    · exact ⟨expoOf_and_maskOf w k, mantOf_mask_of_ge w (by omega)⟩
  · exact (isInf_iff _).mpr ⟨(expoOf_mask_of_le w hk.le).trans hnan.1, mantOf_mask_of_ge w hk.ge⟩
  · refine ⟨fun ⟨hk, _⟩ => ⟨?_, mantOf_mask_of_ge w (by omega), isFinite_mask_of_gt w hk⟩, isZero_mask_of_eq w⟩
    rw [expoOf_and_maskOf, not_not.mp hnonfinite]
    exact BitVec.allOnes_and

/-- Settles O19: each clause is a lemma about the masked word's fields, magnitude or value. -/
theorem quantizationErrorBound : Obligations.QuantizationErrorBound := by
  rintro w _ k hw rfl
  exact ⟨isFinite_mask hw, signOf_mask w k, magOf_mask_le w k,
    fun hk => ⟨expoOf_mask_of_le w hk, abs_valOf_sub_mask w hk⟩,
    abs_valOf_sub_mask_le w k, abs_valOf_lt w, abs_valOf_sub_mask_lt w k⟩

/-- Settles O20, by cases on the range of `k`. -/
theorem compressMasksEveryElement : Obligations.CompressMasksEveryElement := by
  intro s k data
  by_cases hk : ValidK k
  · simpa only [if_pos hk] using compress_of_validK hk s data
  · simpa only [if_neg hk] using compress_of_not_validK hk s data

/-- Settles O21: the mask of `k = 0` is all ones. -/
theorem compressAtZeroIsIdentity : Obligations.CompressAtZeroIsIdentity := by
  have hmask : ∀ w : Word, w &&& maskOf 0 = w := fun w => by rw [maskOf_zero, BitVec.and_allOnes]
  refine ⟨⟨maskOf_zero, hmask⟩, fun s data => ?_⟩
  obtain ⟨t, -, -, ht⟩ := compress_of_validK (k := 0) (by decide) s data
  have hk : BitVec.ofInt 5 0 = 0 := rfl
  rw [hk, List.map_congr_left fun w _ => hmask w, List.map_id'] at ht
  exact ⟨t, ht⟩

/-- Settles O12: CSTART is `UnitC.start`, which opens the job with `mask(k)` or closes the job. -/
theorem cstartOpensOrRejects : Obligations.CstartOpensOrRejects := by
  refine fun k s => ⟨fun ⟨lo, hi⟩ => decode_encode_cstart lo hi, fun hk => ?_, fun hk => ?_⟩
  · have hstart : UnitC.run (.cstart k) s.c = (UnitC.opened (BitVec.ofInt 5 k), ⟨.ok, 0⟩) := if_pos hk
    have hnat : (BitVec.ofInt 5 k).toNat = k.toNat := by
      rw [BitVec.toNat_ofInt, Int.emod_eq_of_lt (by omega) (by norm_num; omega)]
    refine ⟨_, exec_of_unitC rfl s, ?_⟩
    rw [hstart]
    exact ⟨rfl, (congrArg Int.ofNat hnat).trans (Int.toNat_of_nonneg hk.1),
      (maskOf_toNat _).trans (by rw [hnat]), rfl, rfl, rfl, rfl⟩
  · have hstart : UnitC.run (.cstart k) s.c = (s.c.closed, ⟨.error .invalidParameter, 0⟩) :=
      UnitC.start_of_not_validK ((not_validK_iff k).mpr hk) s.c
    rw [exec_of_unitC rfl, hstart]
    rfl

/-- Settles O13: the two branches of CPUSH, a job open or none; neither writes unit C. -/
theorem cpushAnswersTheMaskedWord : Obligations.CpushAnswersTheMaskedWord := by
  refine fun w s => ⟨decode_encode (i := .cpush w) rfl, fun hs => ?_, fun hs => ?_⟩
  · exact if_pos hs
  · exact if_neg (by simp [hs])

/-- Settles O14: CEND answers OK and closes the job, and a closed job is closed by nothing. -/
theorem cendClosesTheJob : Obligations.CendClosesTheJob := by
  refine ⟨decode_encode (i := .cend) rfl, fun s => ⟨rfl, fun hs => ?_⟩⟩
  have hkeep : s.c.closed = s.c := by rw [UnitC.closed, ← hs]
  rw [exec_of_unitC rfl]
  show Host.Outcome.next (s.answerC (s.c.closed, ⟨.ok, 0⟩)) = _
  rw [hkeep]
  rfl

/-- Settles O15: the mask's value, its bits and its shifted form. -/
theorem maskHasTheTopBits : Obligations.MaskHasTheTopBits :=
  fun k => ⟨maskOf_toNat k, fun _ hi => getLsbD_maskOf k hi, maskOf_eq_shiftLeft k⟩

end Sys2Proof.Machine
end

section
/-! SUPPORT. The binary64 result format: the fields and the value of a pattern, the numbers it can hold at one exponent,
and when a packed significand is a correct rounding (spec/42_numerics.md R173 to R176). -/

namespace Sys2Proof.Machine

/-! The fields of a pattern (R173). -/

/-- The pattern with these fields (R173). -/
def doubleOfFields (sg : Bool) (be : BitVec 11) (fr : BitVec 52) : Double := BitVec.ofBool sg ++ be ++ fr

section Fields
variable (sg : Bool) (be : BitVec 11) (fr : BitVec 52)

@[simp] theorem frac64_doubleOfFields : frac64 (doubleOfFields sg be fr) = fr :=
  BitVec.extractLsb'_append_eq_right

@[simp] theorem expo64_doubleOfFields : expo64 (doubleOfFields sg be fr) = be := by
  apply BitVec.eq_of_getLsbD_eq
  intro i hi
  rw [expo64, doubleOfFields, BitVec.getLsbD_extractLsb', BitVec.getLsbD_append, BitVec.getLsbD_append]
  simp [hi]

@[simp] theorem sign64_doubleOfFields : sign64 (doubleOfFields sg be fr) = sg := by
  rw [sign64, doubleOfFields, BitVec.getLsbD_append, BitVec.getLsbD_append]
  simp

end Fields

/-- The unsigned value of a pattern, field by field (R173). -/
theorem toNat_eq_fields (r : Double) :
    r.toNat = (sign64 r).toNat * 2 ^ 63 + (expo64 r).toNat * 2 ^ 52 + (frac64 r).toNat := by
  have hs : (sign64 r).toNat = r.toNat / 2 ^ 63 % 2 := by
    rw [sign64, BitVec.getLsbD, Nat.testBit_eq_decide_div_mod_eq]
    rcases Nat.mod_two_eq_zero_or_one (r.toNat / 2 ^ 63) with h | h <;> rw [h] <;> rfl
  rw [hs, expo64, frac64, BitVec.extractLsb'_toNat, BitVec.extractLsb'_toNat, Nat.shiftRight_eq_div_pow]
  have := r.isLt
  omega

/-! The value of a pattern (R173). -/

theorem zero64_fields : sign64 zero64 = false ∧ expo64 zero64 = 0 ∧ frac64 zero64 = 0 := by decide

theorem isZero64_zero64 : IsZero64 zero64 := zero64_fields.2

theorem val64_of_isZero64 {r : Double} (h : IsZero64 r) : val64 r = 0 := if_pos h

theorem val64_zero64 : val64 zero64 = 0 := val64_of_isZero64 isZero64_zero64

/-- A normal pattern is no zero. -/
theorem not_isZero64_of_isNormal64 {r : Double} (h : IsNormal64 r) : ¬ IsZero64 r := by
  intro hz
  have hlow := h.1
  rw [hz.1] at hlow
  exact absurd hlow (by decide)

theorem val64_of_isNormal64 {r : Double} (h : IsNormal64 r) :
    val64 r = (if sign64 r then -1 else 1) * (2 ^ 52 + ((frac64 r).toNat : ℚ)) * 2 ^ ((expo64 r).toNat - 1075 : ℤ) := by
  rw [val64, if_neg (not_isZero64_of_isNormal64 h), zpow_sub₀ two_ne_zero, zpow_natCast, mul_div_assoc]
  norm_cast

theorem abs_val64_of_isNormal64 {r : Double} (h : IsNormal64 r) :
    |val64 r| = (2 ^ 52 + ((frac64 r).toNat : ℚ)) * 2 ^ ((expo64 r).toNat - 1075 : ℤ) := by
  have hsign : |if sign64 r then (-1 : ℚ) else 1| = 1 := by split <;> simp
  rw [val64_of_isNormal64 h, abs_mul, abs_mul, hsign, one_mul, abs_of_nonneg (by positivity),
    abs_of_pos (by positivity)]

/-- What binary64 holds at the scale of exponent `e`: whole multiples of `2^(e - 52)`, and numbers below
`2^e`. -/
theorem val64_multiple_or_lt {p : Double} (hp : IsZero64 p ∨ IsNormal64 p) (e : ℤ) :
    (∃ k : ℤ, val64 p = k * 2 ^ (e - 52)) ∨ |val64 p| < 2 ^ e := by
  rcases hp with hz | hn
  · exact .inl ⟨0, by rw [val64_of_isZero64 hz]; simp⟩
  · rcases le_or_gt (e + 1023) (expo64 p).toNat with hexp | hexp
    · obtain ⟨j, hj⟩ := Int.eq_ofNat_of_zero_le (Int.sub_nonneg_of_le hexp)
      have hpow : (2 : ℚ) ^ ((expo64 p).toNat - 1075 : ℤ) = 2 ^ j * 2 ^ (e - 52) := by
        rw [← zpow_natCast, ← zpow_add₀ two_ne_zero]
        congr 1
        omega
      refine .inl ⟨(if sign64 p then -1 else 1) * (2 ^ 52 + ((frac64 p).toNat : ℤ)) * 2 ^ j, ?_⟩
      rw [val64_of_isNormal64 hn, hpow]
      push_cast
      ring
    · have hf : ((frac64 p).toNat : ℚ) < 2 ^ 52 := by exact_mod_cast (frac64 p).isLt
      refine .inr ?_
      calc |val64 p| = (2 ^ 52 + ((frac64 p).toNat : ℚ)) * 2 ^ ((expo64 p).toNat - 1075 : ℤ) :=
          abs_val64_of_isNormal64 hn
        _ < 2 ^ (53 : ℤ) * 2 ^ ((expo64 p).toNat - 1075 : ℤ) := by
          gcongr
          linarith
        _ = 2 ^ ((expo64 p).toNat - 1022 : ℤ) := by rw [← zpow_add₀ two_ne_zero]; congr 1; ring
        _ ≤ 2 ^ e := zpow_le_zpow_right₀ one_le_two (by omega)

/-! Packing a significand (R174, R175). -/

/-- `(-1)^sg` (R173). -/
def signFactor (sg : Bool) : ℤ := if sg then -1 else 1

theorem signFactor_mul_self (sg : Bool) : signFactor sg * signFactor sg = 1 := by cases sg <;> rfl

theorem abs_signFactor (sg : Bool) : |(signFactor sg : ℝ)| = 1 := by cases sg <;> simp [signFactor]

section Pack
variable {e : ℤ} {M : ℕ}

theorem toNat_ofInt_expo (h : 0 ≤ e + 1023) (h' : e + 1023 < 2048) :
    ((BitVec.ofInt 11 (e + 1023)).toNat : ℤ) = e + 1023 := by
  rw [BitVec.toNat_ofInt, Int.toNat_of_nonneg (Int.emod_nonneg _ (by norm_num))]
  exact Int.emod_eq_of_lt h h'

/-- A significand below `2^53` goes into the fields as it is. -/
theorem pack64_of_ne (sg : Bool) (e : ℤ) (h : M ≠ 2 ^ 53) :
    pack64 sg e M = doubleOfFields sg (BitVec.ofInt 11 (e + 1023)) (BitVec.ofNat 52 (M - 2 ^ 52)) := if_neg h

/-- A significand that rounding carried to `2^53` is `2^52` at the next exponent. -/
theorem pack64_carry (sg : Bool) (e : ℤ) : pack64 sg e (2 ^ 53) = pack64 sg (e + 1) (2 ^ 52) := by
  rw [pack64_of_ne sg (e + 1) (by norm_num), pack64, if_pos rfl]
  rfl

@[simp] theorem sign64_pack64 (sg : Bool) (e : ℤ) (M : ℕ) : sign64 (pack64 sg e M) = sg := by
  by_cases h : M = 2 ^ 53
  · rw [h, pack64_carry, pack64_of_ne sg _ (by norm_num), sign64_doubleOfFields]
  · rw [pack64_of_ne sg e h, sign64_doubleOfFields]

/-- The fraction of a packed significand is even where the significand is. -/
theorem frac64_pack64_even (sg : Bool) (e : ℤ) (hM : 2 ^ 52 ≤ M) (h : M % 2 = 0) :
    (frac64 (pack64 sg e M)).getLsbD 0 = false := by
  by_cases hc : M = 2 ^ 53
  · rw [hc, pack64_carry, pack64_of_ne sg _ (by norm_num), frac64_doubleOfFields]
    rfl
  · rw [pack64_of_ne sg e hc, frac64_doubleOfFields, BitVec.getLsbD_ofNat, Nat.testBit_zero,
      decide_eq_false (show ¬ (M - 2 ^ 52) % 2 = 1 by omega), Bool.and_false]

/-- A packed significand is a normal pattern; the exponent 1023 is left for a carry. -/
theorem isNormal64_pack64_of_ne (sg : Bool) (he : -1022 ≤ e) (he' : e ≤ 1023) (h : M ≠ 2 ^ 53) :
    IsNormal64 (pack64 sg e M) := by
  have hexp := toNat_ofInt_expo (e := e) (by omega) (by omega)
  rw [pack64_of_ne sg e h, IsNormal64, expo64_doubleOfFields]
  omega

theorem isNormal64_pack64 (sg : Bool) (he : -1022 ≤ e) (he' : e ≤ 1022) : IsNormal64 (pack64 sg e M) := by
  by_cases h : M = 2 ^ 53
  · rw [h, pack64_carry]
    exact isNormal64_pack64_of_ne sg (by omega) (by omega) (by norm_num)
  · exact isNormal64_pack64_of_ne sg he (by omega) h

theorem val64_pack64_of_ne (sg : Bool) (he : -1022 ≤ e) (he' : e ≤ 1023) (hM : 2 ^ 52 ≤ M) (hM' : M < 2 ^ 53) :
    val64 (pack64 sg e M) = signFactor sg * M * 2 ^ (e - 52) := by
  have hsign : (signFactor sg : ℚ) = if sg then -1 else 1 := by cases sg <;> simp [signFactor]
  rw [val64_of_isNormal64 (isNormal64_pack64_of_ne sg he he' hM'.ne), sign64_pack64, hsign, pack64_of_ne sg e hM'.ne,
    frac64_doubleOfFields, expo64_doubleOfFields, toNat_ofInt_expo (by omega) (by omega),
    show e + 1023 - 1075 = e - 52 by ring, BitVec.toNat_ofNat, Nat.mod_eq_of_lt (by omega), Nat.cast_sub hM]
  push_cast
  ring

/-- What a packed significand denotes: `±M × 2^(e - 52)`. -/
theorem val64_pack64 (sg : Bool) (he : -1022 ≤ e) (he' : e ≤ 1022) (hM : 2 ^ 52 ≤ M) (hM' : M ≤ 2 ^ 53) :
    val64 (pack64 sg e M) = signFactor sg * M * 2 ^ (e - 52) := by
  rcases hM'.eq_or_lt with rfl | hlt
  · rw [pack64_carry, val64_pack64_of_ne sg (by omega) (by omega) le_rfl (by norm_num),
      show e + 1 - 52 = e - 52 + 1 by ring, zpow_add_one₀ two_ne_zero, pow_succ 2 52]
    push_cast
    ring
  · exact val64_pack64_of_ne sg he (by omega) hM hlt

end Pack

/-! Correct rounding (R174, R175). -/

/-- A sign and a scale keep distances in proportion. -/
theorem abs_scaled_sub (sg : Bool) (e : ℤ) (z y : ℝ) :
    |signFactor sg * z * 2 ^ (e - 52) - signFactor sg * y * 2 ^ (e - 52)| = |z - y| * 2 ^ (e - 52) := by
  rw [← sub_mul, ← mul_sub, abs_mul, abs_mul, abs_signFactor, one_mul,
    abs_of_pos (by positivity : (0 : ℝ) < 2 ^ (e - 52))]

theorem abs_scaled (sg : Bool) (e : ℤ) {y : ℝ} (hy : 0 < y) :
    |signFactor sg * y * 2 ^ (e - 52)| = y * 2 ^ (e - 52) := by
  rw [abs_mul, abs_mul, abs_signFactor, one_mul, abs_of_pos hy,
    abs_of_pos (by positivity : (0 : ℝ) < 2 ^ (e - 52))]

/-- `M` is the significand `y` of exponent `e` rounded to a whole number, to nearest, ties to even, and the exponent is
one of the ranges of R174 and R175. -/
structure RoundedSignificand (e : ℤ) (M : ℕ) (y : ℝ) : Prop where
  expo_ge : -1022 ≤ e
  expo_le : e ≤ 1022
  le_sig : 2 ^ 52 ≤ y
  sig_lt : y < 2 ^ 53
  near : |(M : ℝ) - y| ≤ 1 / 2
  even_of_tie : |(M : ℝ) - y| = 1 / 2 → M % 2 = 0

namespace RoundedSignificand
variable {e : ℤ} {M : ℕ} {y : ℝ}

theorem sig_pos (h : RoundedSignificand e M y) : 0 < y := lt_of_lt_of_le (by positivity) h.le_sig

theorem le_rounded (h : RoundedSignificand e M y) : 2 ^ 52 ≤ M := by
  have hnear := (abs_le.mp h.near).1
  have hlow := h.le_sig
  have hlt : ((2 ^ 52 : ℕ) : ℝ) < ((M + 1 : ℕ) : ℝ) := by push_cast; linarith
  exact Nat.lt_succ_iff.mp (by exact_mod_cast hlt)

theorem rounded_le (h : RoundedSignificand e M y) : M ≤ 2 ^ 53 := by
  have hnear := (abs_le.mp h.near).2
  have hhigh := h.sig_lt
  have hlt : (M : ℝ) < ((2 ^ 53 + 1 : ℕ) : ℝ) := by push_cast; linarith
  exact Nat.lt_succ_iff.mp (by exact_mod_cast hlt)

/-- No whole number is closer to `y`, and another that is as close makes it a tie. -/
theorem nearest (h : RoundedSignificand e M y) (k : ℤ) :
    |(M : ℝ) - y| ≤ |(k : ℝ) - y| ∧ (|(k : ℝ) - y| = |(M : ℝ) - y| → k ≠ M → M % 2 = 0) := by
  have hnear := h.near
  by_cases hk : k = M
  · exact ⟨by rw [hk, Int.cast_natCast], fun _ hne => absurd hk hne⟩
  · have hone : (1 : ℝ) ≤ |(k : ℝ) - M| := by
      exact_mod_cast Int.one_le_abs (sub_ne_zero_of_ne hk)
    have htri : |(k : ℝ) - M| ≤ |(k : ℝ) - y| + |(M : ℝ) - y| := by
      rw [abs_sub_comm (M : ℝ) y]
      exact abs_sub_le _ _ _
    exact ⟨by linarith, fun heq _ => h.even_of_tie (by linarith)⟩

/-- `y` is at least as far from every number below its binade as from `M`. -/
theorem abs_sub_le_sub_two_pow (h : RoundedSignificand e M y) : |(M : ℝ) - y| ≤ y - 2 ^ 52 := by
  have hle := (h.nearest ((2 ^ 52 : ℕ) : ℤ)).1
  rwa [Int.cast_natCast, Nat.cast_pow, Nat.cast_ofNat, abs_sub_comm (2 ^ 52) y,
    abs_of_nonneg (sub_nonneg.mpr h.le_sig)] at hle

theorem cast_val64_pack64 (h : RoundedSignificand e M y) (sg : Bool) :
    (val64 (pack64 sg e M) : ℝ) = signFactor sg * M * 2 ^ (e - 52) := by
  rw [val64_pack64 sg h.expo_ge h.expo_le h.le_rounded h.rounded_le]
  push_cast
  rfl

/-- A whole multiple of `2^(e - 52)` is no closer than the packed significand, and as close only at a tie. -/
theorem le_of_val64_eq_multiple (h : RoundedSignificand e M y) (sg : Bool) {p : Double} {k : ℤ}
    (hk : val64 p = k * 2 ^ (e - 52)) :
    |(val64 (pack64 sg e M) : ℝ) - signFactor sg * y * 2 ^ (e - 52)| ≤
        |(val64 p : ℝ) - signFactor sg * y * 2 ^ (e - 52)| ∧
      (|(val64 p : ℝ) - signFactor sg * y * 2 ^ (e - 52)| =
          |(val64 (pack64 sg e M) : ℝ) - signFactor sg * y * 2 ^ (e - 52)| →
        val64 p ≠ val64 (pack64 sg e M) → (frac64 (pack64 sg e M)).getLsbD 0 = false) := by
  have hu : (0 : ℝ) < 2 ^ (e - 52) := by positivity
  have hval := h.cast_val64_pack64 sg
  have hp : (val64 p : ℝ) = signFactor sg * ((signFactor sg * k : ℤ) : ℝ) * 2 ^ (e - 52) := by
    have hone : (signFactor sg : ℝ) * signFactor sg = 1 := by exact_mod_cast signFactor_mul_self sg
    rw [hk]
    push_cast
    rw [← mul_assoc, hone, one_mul]
  obtain ⟨hle, htie⟩ := h.nearest (signFactor sg * k)
  rw [hval, hp, abs_scaled_sub, abs_scaled_sub]
  refine ⟨mul_le_mul_of_nonneg_right hle hu.le, fun heq hne => ?_⟩
  refine frac64_pack64_even sg e h.le_rounded (htie (mul_right_cancel₀ hu.ne' heq) fun hkM => hne ?_)
  rw [hkM] at hp
  exact_mod_cast hp.trans hval.symm

/-- A number below the binade is farther than the packed significand. -/
theorem lt_of_abs_val64_lt (h : RoundedSignificand e M y) (sg : Bool) {p : Double} (hp : |val64 p| < 2 ^ e) :
    |(val64 (pack64 sg e M) : ℝ) - signFactor sg * y * 2 ^ (e - 52)| <
      |(val64 p : ℝ) - signFactor sg * y * 2 ^ (e - 52)| := by
  have hu : (0 : ℝ) < 2 ^ (e - 52) := by positivity
  have hsmall : |(val64 p : ℝ)| < 2 ^ 52 * 2 ^ (e - 52) := by
    have hpow : (2 : ℝ) ^ 52 * 2 ^ (e - 52) = 2 ^ e := by
      rw [← zpow_natCast, ← zpow_add₀ two_ne_zero]
      congr 1
      push_cast
      ring
    have hcast := (Rat.cast_lt (K := ℝ)).mpr hp
    rwa [Rat.cast_abs, Rat.cast_zpow, Rat.cast_ofNat, ← hpow] at hcast
  rw [h.cast_val64_pack64, abs_scaled_sub]
  calc |(M : ℝ) - y| * 2 ^ (e - 52) ≤ (y - 2 ^ 52) * 2 ^ (e - 52) :=
        mul_le_mul_of_nonneg_right h.abs_sub_le_sub_two_pow hu.le
    _ = y * 2 ^ (e - 52) - 2 ^ 52 * 2 ^ (e - 52) := sub_mul _ _ _
    _ < y * 2 ^ (e - 52) - |(val64 p : ℝ)| := sub_lt_sub_left hsmall _
    _ = |signFactor sg * y * 2 ^ (e - 52)| - |(val64 p : ℝ)| := by rw [abs_scaled sg e h.sig_pos]
    _ ≤ |(val64 p : ℝ) - signFactor sg * y * 2 ^ (e - 52)| := by
      rw [abs_sub_comm]
      exact abs_sub_abs_le_abs_sub _ _

/-- Packing a rounded significand is the correct rounding of `±y × 2^(e - 52)`. -/
theorem roundsTo_pack64 (h : RoundedSignificand e M y) (sg : Bool) :
    RoundsTo (pack64 sg e M) (signFactor sg * y * 2 ^ (e - 52)) := by
  refine ⟨.inr (isNormal64_pack64 sg h.expo_ge h.expo_le), fun h0 => ?_, fun p hp => ?_⟩
  · have hsize := abs_scaled sg e h.sig_pos
    rw [h0, abs_zero] at hsize
    exact absurd hsize.symm (mul_pos h.sig_pos (by positivity)).ne'
  · rcases val64_multiple_or_lt hp e with ⟨k, hk⟩ | hlt
    · exact h.le_of_val64_eq_multiple sg hk
    · have hstrict := h.lt_of_abs_val64_lt sg hlt
      exact ⟨hstrict.le, fun heq _ => absurd heq hstrict.ne'⟩

end RoundedSignificand

/-- The rounding of 0 is +0 (R176). -/
theorem roundsTo_zero64 : RoundsTo zero64 0 := by
  refine ⟨.inl isZero64_zero64, fun _ => rfl, fun p _ => ⟨?_, fun _ _ => by decide⟩⟩
  rw [val64_zero64]
  simp

end Sys2Proof.Machine
end

section
/-! SUPPORT. The two rounding functions round correctly over the ranges they are defined on (spec/42_numerics.md R174,
R175). -/

namespace Sys2Proof.Machine

/-! Rounding a ratio, and the root of a ratio, to a whole number. -/

section Nearest
variable {n d : ℕ}

/-- `roundHalfEven n d` is nearest to `n / d`, and even at a tie (R174). -/
theorem roundHalfEven_near (hd : 0 < d) :
    |(roundHalfEven n d : ℝ) - (n : ℝ) / d| ≤ 1 / 2 ∧
      (|(roundHalfEven n d : ℝ) - (n : ℝ) / d| = 1 / 2 → roundHalfEven n d % 2 = 0) := by
  obtain ⟨hup, hlow, heven⟩ := roundHalfEven_spec (n := n) hd
  generalize roundHalfEven n d = M at *
  have hd' : (0 : ℝ) < d := by exact_mod_cast hd
  have hup' : 2 * (n : ℝ) ≤ (2 * M + 1) * d := by exact_mod_cast hup
  have hlow' : 2 * (M : ℝ) * d ≤ 2 * n + d := by exact_mod_cast hlow
  have hle : (n : ℝ) / d ≤ M + 1 / 2 := by rw [div_le_iff₀ hd']; linarith
  have hge : M - 1 / 2 ≤ (n : ℝ) / d := by rw [le_div_iff₀ hd']; linarith
  refine ⟨abs_le.mpr ⟨by linarith, by linarith⟩, fun htie => heven ?_⟩
  have hn : (n : ℝ) = (n : ℝ) / d * d := (div_mul_cancel₀ _ hd'.ne').symm
  rcases (abs_eq (by norm_num)).mp htie with h | h
  · have hy : (n : ℝ) / d = M - 1 / 2 := by linarith
    refine .inr ?_
    rw [hy] at hn
    exact_mod_cast (by linarith : 2 * (n : ℝ) + d = 2 * M * d)
  · have hy : (n : ℝ) / d = M + 1 / 2 := by linarith
    refine .inl ?_
    rw [hy] at hn
    exact_mod_cast (by linarith : 2 * (n : ℝ) = (2 * M + 1) * d)

/-- `isqrt` of the whole part of a ratio is the whole part of its root (R175). -/
theorem isqrt_le_sqrt (hd : 0 < d) :
    (isqrt (n / d) : ℝ) ≤ Real.sqrt ((n : ℝ) / d) ∧ Real.sqrt ((n : ℝ) / d) < isqrt (n / d) + 1 := by
  have hd' : (0 : ℝ) < d := by exact_mod_cast hd
  obtain ⟨hlow, hup⟩ := isqrt_spec (n / d)
  constructor
  · apply Real.le_sqrt_of_sq_le
    rw [le_div_iff₀ hd', pow_two]
    exact_mod_cast (Nat.le_div_iff_mul_le hd).mp hlow
  · rw [Real.sqrt_lt' (by positivity), div_lt_iff₀ hd', pow_two]
    exact_mod_cast (Nat.div_lt_iff_lt_mul hd).mp hup

/-- `roundSqrtHalfEven n d` is nearest to the root of `n / d`, and even at a tie (R175). -/
theorem roundSqrtHalfEven_near (hd : 0 < d) :
    |(roundSqrtHalfEven n d : ℝ) - Real.sqrt ((n : ℝ) / d)| ≤ 1 / 2 ∧
      (|(roundSqrtHalfEven n d : ℝ) - Real.sqrt ((n : ℝ) / d)| = 1 / 2 → roundSqrtHalfEven n d % 2 = 0) := by
  obtain ⟨hlow, hup⟩ := isqrt_le_sqrt (n := n) hd
  have hd' : (0 : ℝ) < d := by exact_mod_cast hd
  have hsq : Real.sqrt ((n : ℝ) / d) ^ 2 * d = n := by
    rw [Real.sq_sqrt (by positivity), div_mul_cancel₀ _ hd'.ne']
  rw [roundSqrtHalfEven]
  have hy := Real.sqrt_nonneg ((n : ℝ) / d)
  generalize isqrt (n / d) = M at *
  generalize Real.sqrt ((n : ℝ) / d) = y at *
  have hhalf : (((4 * M * M + 4 * M + 1) * d : ℕ) : ℝ) = 4 * ((M + 1 / 2) ^ 2 * d) := by push_cast; ring
  have hgt : 4 * n > (4 * M * M + 4 * M + 1) * d ↔ (M : ℝ) + 1 / 2 < y := by
    rw [gt_iff_lt, ← Nat.cast_lt (α := ℝ), hhalf, Nat.cast_mul, Nat.cast_ofNat,
      mul_lt_mul_iff_right₀ (by norm_num), ← hsq, mul_lt_mul_iff_left₀ hd',
      pow_lt_pow_iff_left₀ (by positivity) hy two_ne_zero]
  have heq : 4 * n = (4 * M * M + 4 * M + 1) * d ↔ (M : ℝ) + 1 / 2 = y := by
    rw [← Nat.cast_inj (R := ℝ), hhalf, Nat.cast_mul, Nat.cast_ofNat, mul_right_inj' (by norm_num), ← hsq,
      mul_left_inj' hd'.ne', pow_left_inj₀ hy (by positivity) two_ne_zero, eq_comm]
  simp only [hgt, heq]
  split
  next h =>
    have hge : (M : ℝ) + 1 / 2 ≤ y := h.elim le_of_lt fun h => h.1.le
    push_cast
    refine ⟨abs_le.mpr ⟨by linarith, by linarith⟩, fun htie => ?_⟩
    rw [abs_of_nonneg (by linarith)] at htie
    have hy : (M : ℝ) + 1 / 2 = y := by linarith
    rcases h with h | ⟨-, hodd⟩
    · exact absurd hy h.ne
    · omega
  next h =>
    have hle : y ≤ (M : ℝ) + 1 / 2 := not_lt.mp fun hlt => h (.inl hlt)
    refine ⟨abs_le.mpr ⟨by linarith, by linarith⟩, fun htie => ?_⟩
    rw [abs_of_nonpos (by linarith)] at htie
    have hy : (M : ℝ) + 1 / 2 = y := by linarith
    by_contra hodd
    exact h (.inr ⟨hy, by omega⟩)

end Nearest

/-! The significand and the exponent that the two functions pack. -/

/-- Scaling a ratio by a power of two of either sign, as the functions do it on whole numbers. -/
theorem ratio_mul_two_zpow (a b : ℕ) (k : ℤ) :
    ((a * 2 ^ k.toNat : ℕ) : ℝ) / ((b * 2 ^ (-k).toNat : ℕ) : ℝ) = (a : ℝ) / b * 2 ^ k := by
  have hk : (2 : ℝ) ^ k = 2 ^ k.toNat / 2 ^ (-k).toNat := by
    rw [← zpow_natCast, ← zpow_natCast, ← zpow_sub₀ two_ne_zero]
    congr 1
    omega
  rw [hk]
  push_cast
  rw [mul_div_mul_comm]

/-- `floorLog2` is the exponent of its ratio, over the reals (R174). -/
theorem floorLog2_spec_real {num den : ℕ} (hn : 0 < num) (hd : 0 < den) :
    (2 : ℝ) ^ floorLog2 num den ≤ (num : ℝ) / den ∧ (num : ℝ) / den < 2 ^ (floorLog2 num den + 1) := by
  obtain ⟨hlow, hup⟩ := floorLog2_spec hn hd
  have hlow' := (Rat.cast_le (K := ℝ)).mpr hlow
  have hup' := (Rat.cast_lt (K := ℝ)).mpr hup
  push_cast at hlow' hup'
  exact ⟨hlow', hup'⟩

/-- A number between `2^-1022` and `2^1023`, its exponent, and its significand rounded. -/
theorem roundedSignificand_of_near {q : ℝ} {e : ℤ} {M : ℕ} (hlow : 2 ^ e ≤ q) (hup : q < 2 ^ (e + 1))
    (hmin : 2 ^ (-1022 : ℤ) ≤ q) (hmax : q < 2 ^ (1023 : ℤ))
    (hnear : |(M : ℝ) - q * 2 ^ (52 - e)| ≤ 1 / 2 ∧ (|(M : ℝ) - q * 2 ^ (52 - e)| = 1 / 2 → M % 2 = 0)) :
    RoundedSignificand e M (q * 2 ^ (52 - e)) := by
  have hexp : ∀ {a b : ℤ}, (2 : ℝ) ^ a < 2 ^ b → a < b := fun h => (zpow_lt_zpow_iff_right₀ one_lt_two).mp h
  have hscale : ∀ k : ℤ, (2 : ℝ) ^ (e + k) * 2 ^ (52 - e) = 2 ^ (k + 52) := fun k => by
    rw [← zpow_add₀ two_ne_zero]
    congr 1
    ring
  have hpos : (0 : ℝ) < 2 ^ (52 - e) := by positivity
  have hsig := mul_le_mul_of_nonneg_right hlow hpos.le
  have hsig' := mul_lt_mul_of_pos_right hup hpos
  have hzero := hscale 0
  rw [add_zero] at hzero
  rw [hzero] at hsig
  rw [hscale 1] at hsig'
  exact ⟨Int.lt_add_one_iff.mp (hexp (hmin.trans_lt hup)), Int.lt_add_one_iff.mp (hexp (hlow.trans_lt hmax)),
    by exact_mod_cast hsig, by exact_mod_cast hsig', hnear.1, hnear.2⟩

/-- A number is its significand at its exponent. -/
theorem mul_two_zpow_significand (q : ℝ) (e : ℤ) : q * 2 ^ (52 - e) * 2 ^ (e - 52) = q := by
  rw [mul_assoc, ← zpow_add₀ two_ne_zero, sub_add_sub_cancel', sub_self, zpow_zero, mul_one]

/-- An integer is its sign and its magnitude. -/
theorem eq_signFactor_mul_natAbs (a : ℤ) : (a : ℝ) = signFactor (decide (a < 0)) * a.natAbs := by
  rw [Nat.cast_natAbs]
  rcases lt_or_ge a 0 with h | h
  · rw [decide_eq_true h, abs_of_neg h]
    simp [signFactor]
  · rw [decide_eq_false (not_lt.mpr h), abs_of_nonneg h]
    simp [signFactor]

/-- In its range, `rn64` packs the rounded significand of its ratio (R174). -/
theorem rn64_rounds {num : ℤ} {den : ℕ} (hd : 0 < den) (hn : num ≠ 0) (hr : InRange64 num den) :
    ∃ e M y, rn64 num den = pack64 (decide (num < 0)) e M ∧ RoundedSignificand e M y ∧
      (num : ℝ) / den = signFactor (decide (num < 0)) * y * 2 ^ (e - 52) := by
  have hd' : (0 : ℝ) < den := by exact_mod_cast hd
  obtain ⟨hlow, hup⟩ := floorLog2_spec_real (Int.natAbs_pos.mpr hn) hd
  have hden : 0 < den * 2 ^ (-(52 - floorLog2 num.natAbs den)).toNat := by positivity
  have hnear := roundHalfEven_near (n := num.natAbs * 2 ^ (52 - floorLog2 num.natAbs den).toNat) hden
  rw [ratio_mul_two_zpow, neg_sub] at hnear
  have hmin : (2 : ℝ) ^ (-1022 : ℤ) ≤ (num.natAbs : ℝ) / den := by
    rw [zpow_neg, inv_le_iff_one_le_mul₀ (by positivity), div_mul_eq_mul_div, one_le_div₀ hd']
    exact_mod_cast hr.1
  have hmax : (num.natAbs : ℝ) / den < 2 ^ (1023 : ℤ) := by
    rw [div_lt_iff₀' hd']
    exact_mod_cast hr.2
  refine ⟨floorLog2 num.natAbs den, _, _, ?_, roundedSignificand_of_near hlow hup hmin hmax hnear, ?_⟩
  · rw [rn64, if_neg hn, if_pos hr]
  · rw [mul_assoc, mul_two_zpow_significand, mul_div_assoc', ← eq_signFactor_mul_natAbs]

theorem two_zpow_sq (k : ℤ) : ((2 : ℝ) ^ k) ^ 2 = 2 ^ (2 * k) := by
  rw [← zpow_natCast, ← zpow_mul, mul_comm]
  rfl

/-- The exponent of a root is half that of its square, rounded down. -/
theorem two_zpow_half_le_sqrt {q : ℝ} {f : ℤ} (hlow : 2 ^ f ≤ q) (hup : q < 2 ^ (f + 1)) :
    2 ^ (f / 2) ≤ Real.sqrt q ∧ Real.sqrt q < 2 ^ (f / 2 + 1) := by
  constructor
  · apply Real.le_sqrt_of_sq_le
    rw [two_zpow_sq]
    exact (zpow_le_zpow_right₀ one_le_two (by omega)).trans hlow
  · rw [Real.sqrt_lt' (by positivity), two_zpow_sq]
    exact hup.trans_le (zpow_le_zpow_right₀ one_le_two (by omega))

/-- In its range, `rn64Sqrt` packs the rounded significand of the root of its ratio (R175). -/
theorem rn64Sqrt_rounds {num : ℤ} {den : ℕ} (hd : 0 < den) (hr : InRangeSqrt64 num den) :
    ∃ e M y, rn64Sqrt num den = pack64 false e M ∧ RoundedSignificand e M y ∧
      Real.sqrt ((num : ℝ) / den) = signFactor false * y * 2 ^ (e - 52) := by
  obtain ⟨hpos, hrlow, hrup⟩ := hr
  have hd' : (0 : ℝ) < den := by exact_mod_cast hd
  have hnum : (num : ℝ) = num.natAbs := by rw [Nat.cast_natAbs, abs_of_pos hpos]
  obtain ⟨hflow, hfup⟩ := floorLog2_spec_real (Int.natAbs_pos.mpr hpos.ne') hd
  obtain ⟨hlow, hup⟩ := two_zpow_half_le_sqrt hflow hfup
  obtain ⟨e, he⟩ : ∃ e, floorLog2 num.natAbs den / 2 = e := ⟨_, rfl⟩
  rw [he] at hlow hup
  have hden : 0 < den * 2 ^ (-(104 - 2 * e)).toNat := by positivity
  have hnear := roundSqrtHalfEven_near (n := num.natAbs * 2 ^ (104 - 2 * e).toNat) hden
  have hroot : Real.sqrt ((2 : ℝ) ^ (104 - 2 * e)) = 2 ^ (52 - e) := by
    rw [Real.sqrt_eq_iff_mul_self_eq (by positivity) (by positivity), ← zpow_add₀ two_ne_zero]
    congr 1
    ring
  rw [ratio_mul_two_zpow, neg_sub, Real.sqrt_mul (by positivity), hroot] at hnear
  have hmin : (2 : ℝ) ^ (-1022 : ℤ) ≤ Real.sqrt ((num.natAbs : ℝ) / den) := by
    apply Real.le_sqrt_of_sq_le
    rw [two_zpow_sq, show 2 * (-1022 : ℤ) = -2044 from rfl, zpow_neg, inv_le_iff_one_le_mul₀ (by positivity),
      div_mul_eq_mul_div, one_le_div₀ hd']
    exact_mod_cast hrlow
  have hmax : Real.sqrt ((num.natAbs : ℝ) / den) < 2 ^ (1023 : ℤ) := by
    rw [Real.sqrt_lt' (by positivity), two_zpow_sq, show 2 * (1023 : ℤ) = 2046 from rfl, div_lt_iff₀' hd']
    exact_mod_cast hrup
  refine ⟨e, _, _, ?_, roundedSignificand_of_near hlow hup hmin hmax hnear, ?_⟩
  · rw [rn64Sqrt, if_neg hpos.ne', if_pos ⟨hpos, hrlow, hrup⟩, he]
  · rw [mul_assoc, mul_two_zpow_significand, hnum]
    simp [signFactor]

/-! What the two functions answer (R174 to R176). -/

section Answers
variable {num : ℤ} {den : ℕ}

@[simp] theorem rn64_zero (den : ℕ) : rn64 0 den = zero64 := if_pos rfl

@[simp] theorem rn64Sqrt_zero (den : ℕ) : rn64Sqrt 0 den = zero64 := if_pos rfl

/-- `RN64` rounds a rational of its range to the nearest binary64, ties to even (R174). -/
theorem roundsTo_rn64 (hd : 0 < den) (h : num = 0 ∨ InRange64 num den) : RoundsTo (rn64 num den) ((num : ℝ) / den) := by
  by_cases hn : num = 0
  · rw [hn, rn64_zero, Int.cast_zero, zero_div]
    exact roundsTo_zero64
  · obtain ⟨e, M, y, hpack, hM, hq⟩ := rn64_rounds hd hn (h.resolve_left hn)
    rw [hpack, hq]
    exact hM.roundsTo_pack64 _

theorem isNormal64_rn64 (hd : 0 < den) (hn : num ≠ 0) (hr : InRange64 num den) : IsNormal64 (rn64 num den) := by
  obtain ⟨e, M, y, hpack, hM, -⟩ := rn64_rounds hd hn hr
  rw [hpack]
  exact isNormal64_pack64 _ hM.expo_ge hM.expo_le

/-- What is not negative is not rounded to a negative pattern, nor to -0. -/
theorem sign64_rn64 (hd : 0 < den) (hnum : 0 ≤ num) (h : num = 0 ∨ InRange64 num den) :
    sign64 (rn64 num den) = false := by
  by_cases hn : num = 0
  · rw [hn, rn64_zero]
    exact zero64_fields.1
  · obtain ⟨e, M, y, hpack, -, -⟩ := rn64_rounds hd hn (h.resolve_left hn)
    rw [hpack, sign64_pack64]
    exact decide_eq_false (not_lt.mpr hnum)

/-- `RN64SQRT` rounds the real root of a rational of its range to the nearest binary64, ties to even (R175). -/
theorem roundsTo_rn64Sqrt (hd : 0 < den) (h : num = 0 ∨ InRangeSqrt64 num den) :
    RoundsTo (rn64Sqrt num den) (Real.sqrt ((num : ℝ) / den)) := by
  by_cases hn : num = 0
  · rw [hn, rn64Sqrt_zero, Int.cast_zero, zero_div, Real.sqrt_zero]
    exact roundsTo_zero64
  · obtain ⟨e, M, y, hpack, hM, hq⟩ := rn64Sqrt_rounds hd (h.resolve_left hn)
    rw [hpack, hq]
    exact hM.roundsTo_pack64 _

theorem isNormal64_rn64Sqrt (hd : 0 < den) (hr : InRangeSqrt64 num den) : IsNormal64 (rn64Sqrt num den) := by
  obtain ⟨e, M, y, hpack, hM, -⟩ := rn64Sqrt_rounds hd hr
  rw [hpack]
  exact isNormal64_pack64 _ hM.expo_ge hM.expo_le

theorem sign64_rn64Sqrt (hd : 0 < den) (h : num = 0 ∨ InRangeSqrt64 num den) :
    sign64 (rn64Sqrt num den) = false := by
  by_cases hn : num = 0
  · rw [hn, rn64Sqrt_zero]
    exact zero64_fields.1
  · obtain ⟨e, M, y, hpack, -, -⟩ := rn64Sqrt_rounds hd (h.resolve_left hn)
    rw [hpack, sign64_pack64]

end Answers

end Sys2Proof.Machine
end

section
/-! SUPPORT. What follows from correct rounding alone: order, bounds and exactness; the order of the patterns; and that
binary64 holds every finite binary32 value (spec/42_numerics.md R172 to R174). -/

namespace Sys2Proof.Machine

/-- Of two numbers, the one nearer to `x` or as near is on `x`'s side of their midpoint. -/
theorem midpoint_le_of_abs_sub_le {a b x : ℝ} (hab : a < b) (h : |b - x| ≤ |a - x|) : a + b ≤ 2 * x := by
  have hsq := sq_le_sq.mpr h
  nlinarith

theorem le_midpoint_of_abs_sub_le {a b x : ℝ} (hab : a < b) (h : |a - x| ≤ |b - x|) : 2 * x ≤ a + b := by
  have hsq := sq_le_sq.mpr h
  nlinarith

namespace RoundsTo
variable {r s p : Double} {x y : ℝ}

/-- Rounding keeps the order. -/
theorem val64_mono (hr : RoundsTo r x) (hs : RoundsTo s y) (hxy : x < y) : val64 r ≤ val64 s := by
  obtain ⟨hr64, -, hrnear⟩ := hr
  obtain ⟨hs64, -, hsnear⟩ := hs
  by_contra hlt
  have hlt' : (val64 s : ℝ) < val64 r := by exact_mod_cast not_le.mp hlt
  have hx := midpoint_le_of_abs_sub_le hlt' (hrnear s hs64).1
  have hy := le_midpoint_of_abs_sub_le hlt' (hsnear r hr64).1
  linarith

/-- A number binary64 holds that is at most `x` is at most `x` rounded. -/
theorem le_val64 (hr : RoundsTo r x) (hp : IsZero64 p ∨ IsNormal64 p) (hle : (val64 p : ℝ) ≤ x) :
    val64 p ≤ val64 r := by
  by_contra hlt
  have hlt' : (val64 r : ℝ) < val64 p := by exact_mod_cast not_le.mp hlt
  have hmid := le_midpoint_of_abs_sub_le hlt' (hr.2.2 p hp).1
  linarith

/-- A number binary64 holds that is at least `x` is at least `x` rounded. -/
theorem val64_le (hr : RoundsTo r x) (hp : IsZero64 p ∨ IsNormal64 p) (hle : x ≤ (val64 p : ℝ)) :
    val64 r ≤ val64 p := by
  by_contra hlt
  have hlt' : (val64 p : ℝ) < val64 r := by exact_mod_cast not_le.mp hlt
  have hmid := midpoint_le_of_abs_sub_le hlt' (hr.2.2 p hp).1
  linarith

end RoundsTo

/-! The order of the patterns (R173). -/

section Order
variable {r s : Double}

theorem val64_of_isNormal64_of_pos (h : IsNormal64 r) (h0 : sign64 r = false) :
    val64 r = (2 ^ 52 + ((frac64 r).toNat : ℚ)) * 2 ^ ((expo64 r).toNat - 1075 : ℤ) := by
  rw [val64_of_isNormal64 h, h0]
  simp

/-- Among normal patterns without sign, a smaller exponent, or the same and a smaller fraction, is a smaller number. -/
theorem val64_lt_of_fields_lt (hs : IsNormal64 s) (hr : IsNormal64 r) (hs0 : sign64 s = false) (hr0 : sign64 r = false)
    (h : (expo64 s).toNat < (expo64 r).toNat ∨
      ((expo64 s).toNat = (expo64 r).toNat ∧ (frac64 s).toNat < (frac64 r).toNat)) : val64 s < val64 r := by
  rw [val64_of_isNormal64_of_pos hs hs0, val64_of_isNormal64_of_pos hr hr0]
  rcases h with hexp | ⟨hexp, hfrac⟩
  · have hf : ((frac64 s).toNat : ℚ) < 2 ^ 52 := by exact_mod_cast (frac64 s).isLt
    calc (2 ^ 52 + ((frac64 s).toNat : ℚ)) * 2 ^ ((expo64 s).toNat - 1075 : ℤ)
        < (2 ^ 52 * 2) * 2 ^ ((expo64 s).toNat - 1075 : ℤ) := by gcongr; linarith
      _ = 2 ^ 52 * 2 ^ ((expo64 s).toNat - 1075 + 1 : ℤ) := by rw [zpow_add_one₀ two_ne_zero]; ring
      _ ≤ (2 ^ 52 + ((frac64 r).toNat : ℚ)) * 2 ^ ((expo64 r).toNat - 1075 : ℤ) := by
        gcongr
        · exact le_add_of_nonneg_right (Nat.cast_nonneg _)
        · exact one_le_two
        · omega
  · rw [hexp]
    gcongr

/-- Of two patterns without sign, the one that denotes no larger a number is no larger as an unsigned integer. -/
theorem toNat_le_of_val64_le (hr : IsZero64 r ∨ IsNormal64 r) (hs : IsZero64 s ∨ IsNormal64 s)
    (hr0 : sign64 r = false) (hs0 : sign64 s = false) (h : val64 r ≤ val64 s) : r.toNat ≤ s.toNat := by
  have hrn := toNat_eq_fields r
  have hsn := toNat_eq_fields s
  rw [hr0, Bool.toNat_false, zero_mul, zero_add] at hrn
  rw [hs0, Bool.toNat_false, zero_mul, zero_add] at hsn
  rcases hr with ⟨he, hf⟩ | hr
  · rw [hrn, he, hf]
    exact Nat.zero_le _
  · rcases hs with hs | hs
    · have hpos : 0 < val64 r := by
        rw [val64_of_isNormal64_of_pos hr hr0]
        positivity
      rw [val64_of_isZero64 hs] at h
      exact absurd h (not_le.mpr hpos)
    · have hfields := mt (val64_lt_of_fields_lt hs hr hs0 hr0) (not_lt.mpr h)
      have hr52 := (frac64 r).isLt
      have hs52 := (frac64 s).isLt
      omega

end Order

/-! The finite binary32 values (R172). -/

theorem intOf_eq_signFactor (w : Word) : intOf w = signFactor (signOf w) * magOf w := by
  unfold intOf signFactor
  split <;> simp

/-- A magnitude is 24 bits at a scale of `2^0` to `2^253` (R172). -/
theorem exists_magOf_eq {w : Word} (hw : IsFinite w) : ∃ f k : ℕ, f < 2 ^ 24 ∧ k ≤ 253 ∧ magOf w = f * 2 ^ k := by
  have hf : (mantOf w).toNat < 2 ^ 23 := (mantOf w).isLt
  have he : (expoOf w).toNat < 2 ^ 8 := (expoOf w).isLt
  have hne : (expoOf w).toNat ≠ 255 := fun heq => hw (BitVec.eq_of_toNat_eq heq)
  refine ⟨_, _, ?_, ?_, magOf_eq w⟩
  · split <;> omega
  · omega

/-- Binary64 holds the value of every finite word. -/
theorem exists_val64_eq_valOf {w : Word} (hw : IsFinite w) :
    ∃ p, (IsZero64 p ∨ IsNormal64 p) ∧ val64 p = valOf w := by
  obtain ⟨f, k, hf, hk, hmag⟩ := exists_magOf_eq hw
  rw [valOf, intOf_eq_signFactor, hmag]
  rcases Nat.eq_zero_or_pos f with rfl | hpos
  · exact ⟨zero64, .inl isZero64_zero64, by rw [val64_zero64]; simp⟩
  · have hlog : f.log2 < 24 := (Nat.log2_lt hpos.ne').mpr hf
    have hlow : 2 ^ f.log2 ≤ f := Nat.log2_self_le hpos.ne'
    have hup : f < 2 ^ (f.log2 + 1) := Nat.lt_log2_self
    generalize f.log2 = l at *
    obtain ⟨j, hj⟩ := Nat.exists_eq_add_of_le (show l ≤ 52 by omega)
    have hM : 2 ^ 52 ≤ f * 2 ^ j := by
      rw [hj, pow_add]
      exact Nat.mul_le_mul_right _ hlow
    have hM' : f * 2 ^ j < 2 ^ 53 := by
      rw [show 53 = l + 1 + j by omega, pow_add]
      exact Nat.mul_lt_mul_of_pos_right hup (by positivity)
    have he : (-1022 : ℤ) ≤ l + k - 149 := by omega
    have he' : (l + k - 149 : ℤ) ≤ 1023 := by omega
    have hscale : (2 : ℚ) ^ j * 2 ^ (l + k - 149 - 52 : ℤ) = 2 ^ k / 2 ^ 149 := by
      rw [← zpow_natCast, ← zpow_natCast, ← zpow_natCast, ← zpow_add₀ two_ne_zero, ← zpow_sub₀ two_ne_zero]
      congr 1
      push_cast
      omega
    refine ⟨pack64 (signOf w) (l + k - 149) (f * 2 ^ j), .inr (isNormal64_pack64_of_ne _ he he' hM'.ne), ?_⟩
    rw [val64_pack64_of_ne _ he he' hM hM', Nat.cast_mul, Nat.cast_pow, Nat.cast_ofNat, mul_assoc, mul_assoc, hscale]
    push_cast
    ring

/-- A finite word's value is rounded to itself. -/
theorem RoundsTo.val64_eq_valOf {r : Double} {w : Word} (hw : IsFinite w) (h : RoundsTo r (valOf w : ℚ)) :
    val64 r = valOf w := by
  obtain ⟨p, hp, hval⟩ := exists_val64_eq_valOf hw
  rw [← hval] at h ⊢
  exact le_antisymm (h.val64_le hp le_rfl) (h.le_val64 hp le_rfl)

end Sys2Proof.Machine
end

section
/-! SUPPORT. The seven results by the flags and the accumulators, and the flags by the words of a job
(spec/41_fidelity_metrics.md R141, R144, R145; spec/10_state.md R35). -/

namespace Sys2Proof.Machine

/-! The result functions, case by case (R144, R145). -/

section SideResults
variable {d : Side} {n : ℕ}

@[simp] theorem Side.mean_empty (d : Side) : d.mean 0 = qnan64 := if_pos rfl
@[simp] theorem Side.var_empty (d : Side) : d.var 0 = qnan64 := if_pos rfl
@[simp] theorem Side.std_empty (d : Side) : d.std 0 = qnan64 := if_pos rfl

theorem Side.mean_of_nan (hn : n ≠ 0) (h : d.nan = true ∨ (d.pinf = true ∧ d.ninf = true)) : d.mean n = qnan64 := by
  rw [Side.mean, if_neg hn, if_pos h]

theorem Side.mean_of_pinf (hn : n ≠ 0) (hnan : d.nan = false) (hpinf : d.pinf = true) (hninf : d.ninf = false) :
    d.mean n = pinf64 := by
  simp [Side.mean, hn, hnan, hpinf, hninf]

theorem Side.mean_of_ninf (hn : n ≠ 0) (hnan : d.nan = false) (hpinf : d.pinf = false) (hninf : d.ninf = true) :
    d.mean n = ninf64 := by
  simp [Side.mean, hn, hnan, hpinf, hninf]

theorem Side.mean_of_noFlag (hn : n ≠ 0) (h : d.NoFlag) : d.mean n = rn64 d.s1 (n * 2 ^ 149) := by
  obtain ⟨hnan, hpinf, hninf⟩ := h
  simp [Side.mean, hn, hnan, hpinf, hninf]

theorem Side.var_of_flag (hn : n ≠ 0) (h : d.nan = true ∨ d.pinf = true ∨ d.ninf = true) : d.var n = qnan64 := by
  rw [Side.var, if_neg hn, if_pos h]

theorem Side.std_of_flag (hn : n ≠ 0) (h : d.nan = true ∨ d.pinf = true ∨ d.ninf = true) : d.std n = qnan64 := by
  rw [Side.std, if_neg hn, if_pos h]

theorem Side.var_of_noFlag (hn : n ≠ 0) (h : d.NoFlag) : d.var n = rn64 (d.varNum n) (varDen n) := by
  obtain ⟨hnan, hpinf, hninf⟩ := h
  simp [Side.var, hn, hnan, hpinf, hninf]

theorem Side.std_of_noFlag (hn : n ≠ 0) (h : d.NoFlag) : d.std n = rn64Sqrt (d.varNum n) (varDen n) := by
  obtain ⟨hnan, hpinf, hninf⟩ := h
  simp [Side.std, hn, hnan, hpinf, hninf]

end SideResults

section JobResult
variable {m : UnitM}

theorem UnitM.mse_of_empty (hn : m.n = 0) : m.mse = qnan64 := if_pos hn

theorem UnitM.mse_of_dNan (hn : m.n ≠ 0) (h : m.dNan = true) : m.mse = qnan64 := by
  rw [UnitM.mse, if_neg hn, if_pos h]

theorem UnitM.mse_of_dInf (hn : m.n ≠ 0) (hnan : m.dNan = false) (hinf : m.dInf = true) : m.mse = pinf64 := by
  simp [UnitM.mse, hn, hnan, hinf]

theorem UnitM.mse_of_noFlag (hn : m.n ≠ 0) (hnan : m.dNan = false) (hinf : m.dInf = false) :
    m.mse = rn64 m.sd (m.n * 2 ^ 298) := by
  rw [UnitM.mse, if_neg hn, if_neg (by simp [hnan]), if_neg (by simp [hinf])]

theorem UnitM.n_ne_zero_iff : m.n ≠ 0 ↔ m.len ≠ 0 := by
  rw [UnitM.n, ne_eq, ne_eq, ← BitVec.toNat_inj]
  rfl

end JobResult

/-! The flags of a job, by its words (R35). -/

/-- A word that is not finite sets one of the three flags of its side (R171, R141). -/
theorem not_isFinite_iff (x : Word) : ¬ IsFinite x ↔ IsNan x ∨ x = pinf32 ∨ x = ninf32 := by
  rw [isFinite_iff]
  tauto

section Flags
variable (xs : List Word) (len : Word) (ps : List (Word × Word))

theorem sideOf_nan_iff : (sideOf xs).nan = true ↔ ∃ x ∈ xs, IsNan x := by
  simp only [sideOf, List.any_eq_true, decide_eq_true_eq]

theorem sideOf_pinf_iff : (sideOf xs).pinf = true ↔ pinf32 ∈ xs := by
  simp only [sideOf, List.any_eq_true, decide_eq_true_eq, exists_eq_right]

theorem sideOf_ninf_iff : (sideOf xs).ninf = true ↔ ninf32 ∈ xs := by
  simp only [sideOf, List.any_eq_true, decide_eq_true_eq, exists_eq_right]

/-- Some flag of a side is set exactly when some word of it is not finite. -/
theorem sideOf_flag_iff : ((sideOf xs).nan = true ∨ (sideOf xs).pinf = true ∨ (sideOf xs).ninf = true) ↔
    ∃ x ∈ xs, ¬ IsFinite x := by
  rw [sideOf_nan_iff, sideOf_pinf_iff, sideOf_ninf_iff]
  simp only [not_isFinite_iff, and_or_left, exists_or, exists_eq_right]

theorem sideOf_noFlag_iff : (sideOf xs).NoFlag ↔ AllFinite xs := by
  have h := not_congr (sideOf_flag_iff xs)
  simp only [not_or, Bool.not_eq_true, not_exists, not_and, not_not] at h
  exact h

theorem jobOf_dNan_iff : (jobOf len ps).dNan = true ↔ ∃ p ∈ ps, PairIsNan p.1 p.2 := by
  simp only [jobOf, List.any_eq_true, decide_eq_true_eq]

theorem jobOf_dInf_iff : (jobOf len ps).dInf = true ↔ ∃ p ∈ ps, PairIsInf p.1 p.2 := by
  simp only [jobOf, List.any_eq_true, decide_eq_true_eq]

variable {ps}

theorem jobOf_dNan_eq_false (h : ∀ p ∈ ps, ¬ PairIsNan p.1 p.2) : (jobOf len ps).dNan = false := by
  rw [← Bool.not_eq_true, jobOf_dNan_iff]
  exact fun ⟨p, hp, hnan⟩ => h p hp hnan

/-- The flags of the differences are clear exactly when every pair is of finite words. -/
theorem jobOf_dFlags_clear_iff : ((jobOf len ps).dNan = false ∧ (jobOf len ps).dInf = false) ↔
    ∀ p ∈ ps, IsFinite p.1 ∧ IsFinite p.2 := by
  simp only [← Bool.not_eq_true, jobOf_dNan_iff, jobOf_dInf_iff, ← pair_finite_iff, not_exists, not_and, not_or]
  exact ⟨fun h p hp => ⟨h.1 p hp, h.2 p hp⟩, fun h => ⟨fun p hp => (h p hp).1, fun p hp => (h p hp).2⟩⟩

theorem allFinite_pairs_iff : AllFinite (ps.map (·.1)) ∧ AllFinite (ps.map (·.2)) ↔
    ∀ p ∈ ps, IsFinite p.1 ∧ IsFinite p.2 := by
  simp only [AllFinite, List.forall_mem_map]
  exact ⟨fun h p hp => ⟨h.1 p hp, h.2 p hp⟩, fun h => ⟨fun p hp => (h p hp).1, fun p hp => (h p hp).2⟩⟩

end Flags

/-- Each side of a job holds the data of the words pushed on it, as many as pairs. -/
theorem side_of_job {len : Word} {ps : List (Word × Word)} {xs : List Word} {d : Side}
    (h : (xs = ps.map (·.1) ∧ d = (jobOf len ps).o) ∨ (xs = ps.map (·.2) ∧ d = (jobOf len ps).c)) :
    d = sideOf xs ∧ xs.length = ps.length := by
  rcases h with ⟨rfl, rfl⟩ | ⟨rfl, rfl⟩
  · exact ⟨rfl, List.length_map _⟩
  · exact ⟨rfl, List.length_map _⟩

/-! What MPUSH does to the accumulators, as integers, and in what order (R141, R151). -/

section Push
variable (d : Side) (m : UnitM) (x y o c : Word)

theorem Side.push_s2_int : ((d.push x).s2 : ℤ) = if IsFinite x then d.s2 + intOf x * intOf x else d.s2 := by
  rw [Side.push_s2, Nat.cast_add]
  split
  · rw [Int.toNat_of_nonneg (mul_self_nonneg _)]
  · exact add_zero _

theorem Side.push_s1_ite : (d.push x).s1 = if IsFinite x then d.s1 + intOf x else d.s1 := by
  rw [Side.push_s1]
  split
  · rfl
  · exact add_zero _

theorem UnitM.push_sd_int : ((m.push o c).sd : ℤ) =
    if IsFinite o ∧ IsFinite c then m.sd + (intOf o - intOf c) * (intOf o - intOf c) else m.sd := by
  rw [UnitM.push_sd, Nat.cast_add]
  simp only [← pair_finite_iff, ite_not]
  split
  · exact add_zero _
  · rw [Int.toNat_of_nonneg (mul_self_nonneg _)]

/-- Two sides with the same elements are the same. -/
theorem Side.eq_of_fields : ∀ {a b : Side}, a.s1 = b.s1 → a.s2 = b.s2 → a.nan = b.nan → a.pinf = b.pinf →
    a.ninf = b.ninf → a = b := by
  rintro ⟨⟩ ⟨⟩ rfl rfl rfl rfl rfl; rfl

/-- Each accumulator is a sum and each flag a disjunction, so two words enter a side in either order. -/
theorem Side.push_push_comm : (d.push x).push y = (d.push y).push x := by
  apply Side.eq_of_fields
  · simp only [Side.push_s1]; exact add_right_comm _ _ _
  · simp only [Side.push_s2]; exact add_right_comm _ _ _
  · simp only [Side.push_nan]; exact Bool.or_right_comm _ _ _
  · simp only [Side.push_pinf]; exact Bool.or_right_comm _ _ _
  · simp only [Side.push_ninf]; exact Bool.or_right_comm _ _ _

/-- Two pairs enter a job in either order (R151). -/
theorem UnitM.push_push_comm (p q : Word × Word) :
    (m.push p.1 p.2).push q.1 q.2 = (m.push q.1 q.2).push p.1 p.2 := by
  apply UnitM.eq_of_fields
  · simp only [UnitM.push_state]
  · simp only [UnitM.push_len]
  · rfl
  · simp only [UnitM.push_sd]; exact add_right_comm _ _ _
  · simp only [UnitM.push_dNan]; exact Bool.or_right_comm _ _ _
  · simp only [UnitM.push_dInf]; exact Bool.or_right_comm _ _ _
  · exact Side.push_push_comm _ _ _
  · exact Side.push_push_comm _ _ _

end Push

/-! The MREAD forms (R143, R145). -/

/-- Every MREAD form reads its result in a complete job. -/
theorem exec_mread_of_complete {i : Instr} (hi : i ∈ allReads) {s : State} (h : s.m.Complete) :
    exec i s = .next (s.respond .ok (s.payloadOf i)) := by
  cases i with
  | mreadMse | mreadMeanO | mreadMeanC | mreadVarO | mreadVarC | mreadStdO | mreadStdC =>
    exact congrArg Host.Outcome.next (if_pos h)
  | _ => simp [allReads] at hi

/-- Every MREAD form is refused where the job is not complete. -/
theorem exec_mread_of_not_complete {i : Instr} (hi : i ∈ allReads) {s : State} (h : ¬ s.m.Complete) :
    exec i s = .next (s.raise .protocol) := by
  cases i with
  | mreadMse | mreadMeanO | mreadMeanC | mreadVarO | mreadVarC | mreadStdO | mreadStdC =>
    exact congrArg Host.Outcome.next (if_neg h)
  | _ => simp [allReads] at hi

/-- In a job of length 0 the result of every form is `QNAN64` (R145). -/
theorem payloadOf_of_empty {i : Instr} (hi : i ∈ allReads) {s : State} (h : s.m.n = 0) : s.payloadOf i = qnan64 := by
  cases i with
  | mreadMse => exact UnitM.mse_of_empty h
  | mreadMeanO | mreadMeanC => exact (congrArg _ h).trans (Side.mean_empty _)
  | mreadVarO | mreadVarC => exact (congrArg _ h).trans (Side.var_empty _)
  | mreadStdO | mreadStdC => exact (congrArg _ h).trans (Side.std_empty _)
  | _ => simp [allReads] at hi

end Sys2Proof.Machine
end

section
/-! SUPPORT. The sums of a job as exact numbers: the quantities of R147, the bounds of R148, and the Cauchy-Schwarz
inequality of R144 (spec/41_fidelity_metrics.md; spec/42_numerics.md R172). -/

namespace Sys2Proof.Machine

/-! Sums over an all-finite buffer (R30 to R32). -/

section AllFinite
variable {xs : List Word} {ps : List (Word × Word)}

theorem filter_isFinite (h : AllFinite xs) : xs.filter (fun x => decide (IsFinite x)) = xs :=
  List.filter_eq_self.mpr fun x hx => decide_eq_true (h x hx)

theorem sumS1_of_allFinite (h : AllFinite xs) : sumS1 xs = (xs.map intOf).sum := by
  rw [sumS1, filter_isFinite h]

theorem sumS2_of_allFinite (h : AllFinite xs) : sumS2 xs = (xs.map fun x => (intOf x).natAbs ^ 2).sum := by
  rw [sumS2, filter_isFinite h]

theorem sumSd_of_allFinite (h : ∀ p ∈ ps, IsFinite p.1 ∧ IsFinite p.2) :
    sumSd ps = (ps.map fun p => (intOf p.1 - intOf p.2).natAbs ^ 2).sum := by
  rw [sumSd, List.filter_eq_self.mpr fun p hp => decide_eq_true (h p hp)]

theorem sum_map_div {α : Type} (l : List α) (f : α → ℚ) (c : ℚ) :
    (l.map fun x => f x / c).sum = (l.map f).sum / c := by
  simp only [div_eq_mul_inv, List.sum_map_mul_right]

/-- The square of a magnitude, over the rationals. -/
theorem cast_natAbs_sq (a : ℤ) : ((a.natAbs ^ 2 : ℕ) : ℚ) = (a : ℚ) ^ 2 := by
  rw [Nat.cast_pow, Nat.cast_natAbs, Int.cast_abs, sq_abs]

/-- `S1_X × 2^-149 = Σ x_i` (R144). -/
theorem sum_valOf (h : AllFinite xs) : (xs.map valOf).sum = (sumS1 xs : ℚ) / 2 ^ 149 := by
  rw [sumS1_of_allFinite h, Int.cast_list_sum, List.map_map, ← sum_map_div]
  rfl

/-- `S2_X × 2^-298 = Σ x_i^2` (R144). -/
theorem sum_valOf_sq (h : AllFinite xs) : (xs.map fun x => valOf x ^ 2).sum = (sumS2 xs : ℚ) / 2 ^ 298 := by
  rw [sumS2_of_allFinite h, Nat.cast_list_sum, List.map_map, ← sum_map_div]
  refine congrArg List.sum (List.map_congr_left fun x _ => ?_)
  rw [Function.comp_apply, cast_natAbs_sq, valOf, div_pow, ← pow_mul]

/-- `SD × 2^-298 = Σ (o_i - c_i)^2` (R144). -/
theorem sum_valOf_sub_sq (h : ∀ p ∈ ps, IsFinite p.1 ∧ IsFinite p.2) :
    (ps.map fun p => (valOf p.1 - valOf p.2) ^ 2).sum = (sumSd ps : ℚ) / 2 ^ 298 := by
  rw [sumSd_of_allFinite h, Nat.cast_list_sum, List.map_map, ← sum_map_div]
  refine congrArg List.sum (List.map_congr_left fun p _ => ?_)
  rw [Function.comp_apply, cast_natAbs_sq, valOf, valOf, ← sub_div, div_pow, ← pow_mul, Int.cast_sub]

/-- The MSE is the ratio MREAD.MSE rounds (R144, R147). -/
theorem mseOf_eq (h : ∀ p ∈ ps, IsFinite p.1 ∧ IsFinite p.2) :
    mseOf ps = ((sumSd ps : ℤ) : ℚ) / ((ps.length * 2 ^ 298 : ℕ) : ℚ) := by
  rw [mseOf, meanOf, sum_valOf_sub_sq h, List.length_map, div_div, mul_comm, Nat.cast_mul, Nat.cast_pow, Nat.cast_ofNat,
    Int.cast_natCast]

/-- The mean is the ratio MREAD.MEAN rounds (R144, R147). -/
theorem meanOf_eq (h : AllFinite xs) :
    meanOf (xs.map valOf) = (sumS1 xs : ℚ) / ((xs.length * 2 ^ 149 : ℕ) : ℚ) := by
  rw [meanOf, sum_valOf h, List.length_map, div_div, mul_comm, Nat.cast_mul, Nat.cast_pow, Nat.cast_ofNat]

/-- The squares about `c`, by the sums of the numbers and of their squares. -/
theorem sum_map_sub_sq (l : List ℚ) (c : ℚ) :
    (l.map fun x => (x - c) ^ 2).sum = (l.map fun x => x ^ 2).sum - 2 * c * l.sum + l.length * c ^ 2 := by
  induction l with
  | nil => simp
  | cons x l ih =>
    simp only [List.map_cons, List.sum_cons, List.length_cons, ih]
    push_cast
    ring

/-- The two-pass variance is the ratio MREAD.VAR rounds (R144, R147). -/
theorem varianceOf_eq (h : AllFinite xs) (hne : xs.length ≠ 0) :
    varianceOf (xs.map valOf) = ((sideOf xs).varNum xs.length : ℚ) / (varDen xs.length : ℚ) := by
  have hlen : (xs.length : ℚ) ≠ 0 := Nat.cast_ne_zero.mpr hne
  have hvar : ((sideOf xs).varNum xs.length : ℚ) = xs.length * (sumS2 xs : ℚ) - (sumS1 xs : ℚ) * sumS1 xs := by
    rw [Side.varNum]
    push_cast
    rfl
  rw [varianceOf, meanOf, List.length_map, List.length_map, sum_map_sub_sq, List.length_map, List.map_map, meanOf,
    List.length_map, sum_valOf h, hvar, varDen]
  have hsq : (List.map ((fun x => x ^ 2) ∘ valOf) xs).sum = (sumS2 xs : ℚ) / 2 ^ 298 := sum_valOf_sq h
  rw [hsq, Nat.cast_mul, Nat.cast_mul, Nat.cast_pow, Nat.cast_ofNat,
    show (2 : ℚ) ^ 298 = (2 ^ 149) ^ 2 by rw [← pow_mul]]
  field_simp
  ring

end AllFinite

/-! `N × S2 - S1^2` is never negative (R144). -/

/-- The square of a sum of integers is at most their number times the sum of their squares. -/
theorem sq_sum_le_length_mul_sum_sq (l : List ℤ) : l.sum ^ 2 ≤ l.length * (l.map fun a => a ^ 2).sum := by
  have h := sq_sum_le_card_mul_sum_sq (s := Finset.univ) (f := fun i : Fin l.length => l[i.1])
  rwa [Fin.sum_univ_getElem, Fin.sum_univ_fun_getElem l fun a => a ^ 2, Finset.card_univ, Fintype.card_fin] at h

theorem varNum_nonneg {xs : List Word} {n : ℕ} (h : xs.length ≤ n) : 0 ≤ (sideOf xs).varNum n := by
  have hs2 : ((sumS2 xs : ℕ) : ℤ) =
      (((xs.filter fun x => decide (IsFinite x)).map intOf).map fun a => a ^ 2).sum := by
    rw [sumS2, Nat.cast_list_sum, List.map_map, List.map_map]
    refine congrArg List.sum (List.map_congr_left fun x _ => ?_)
    rw [Function.comp_apply, Function.comp_apply, Nat.cast_pow, Int.natAbs_sq]
  have hlen : (xs.filter fun x => decide (IsFinite x)).length ≤ n := (List.length_filter_le _ xs).trans h
  have hcs := sq_sum_le_length_mul_sum_sq ((xs.filter fun x => decide (IsFinite x)).map intOf)
  rw [← hs2, List.length_map, pow_two] at hcs
  refine sub_nonneg.mpr (hcs.trans ?_)
  exact mul_le_mul_of_nonneg_right (by exact_mod_cast hlen) (Int.natCast_nonneg _)

/-! The bounds of R148. -/

section Bounds
variable {xs : List Word} {ps : List (Word × Word)} {n : ℕ}

theorem natAbs_intOf_lt {w : Word} (h : IsFinite w) : (intOf w).natAbs < 2 ^ 277 :=
  calc (intOf w).natAbs = magOf w := natAbs_intOf w
    _ ≤ (2 ^ 24 - 1) * 2 ^ 253 := magOf_le h
    _ < 2 ^ 24 * 2 ^ 253 := Nat.mul_lt_mul_of_pos_right (by norm_num) (by positivity)
    _ = 2 ^ 277 := by rw [← pow_add]

theorem natAbs_intOf_sub_lt {o c : Word} (ho : IsFinite o) (hc : IsFinite c) : (intOf o - intOf c).natAbs < 2 ^ 278 :=
  calc (intOf o - intOf c).natAbs ≤ (intOf o).natAbs + (intOf c).natAbs := Int.natAbs_sub_le _ _
    _ < 2 ^ 277 + 2 ^ 277 := Nat.add_lt_add (natAbs_intOf_lt ho) (natAbs_intOf_lt hc)
    _ = 2 ^ 278 := by rw [← two_mul, ← pow_succ']

/-- A sum of at most `n` terms, each below `b`, is below `n * b`. -/
theorem sum_map_filter_lt_mul {α : Type} {l : List α} {p : α → Bool} {f : α → ℕ} {b : ℕ} (hl : l.length ≤ n)
    (hn : 0 < n) (hf : ∀ x, p x = true → f x < 2 ^ b) : ((l.filter p).map f).sum < n * 2 ^ b := by
  have bound : ∀ y ∈ (l.filter p).map f, y ≤ 2 ^ b - 1 := by
    intro y hy
    obtain ⟨x, hx, rfl⟩ := List.mem_map.mp hy
    exact Nat.le_sub_one_of_lt (hf x (List.mem_filter.mp hx).2)
  calc ((l.filter p).map f).sum
      ≤ ((l.filter p).map f).length * (2 ^ b - 1) := List.sum_le_card_nsmul _ _ bound
    _ ≤ n * (2 ^ b - 1) :=
      Nat.mul_le_mul_right _ (by rw [List.length_map]; exact (List.length_filter_le p l).trans hl)
    _ < n * 2 ^ b := Nat.mul_lt_mul_of_pos_left (Nat.sub_one_lt (by positivity)) hn

theorem natAbs_sumS1_lt_mul (hl : xs.length ≤ n) (hn : 0 < n) : (sumS1 xs).natAbs < n * 2 ^ 277 := by
  refine lt_of_le_of_lt (natAbs_sum_le_sum_natAbs _) ?_
  rw [List.map_map]
  exact sum_map_filter_lt_mul hl hn fun _ hx => natAbs_intOf_lt (of_decide_eq_true hx)

theorem sumS2_lt_mul (hl : xs.length ≤ n) (hn : 0 < n) : sumS2 xs < n * 2 ^ 554 :=
  sum_map_filter_lt_mul hl hn fun _ hx =>
    (Nat.pow_lt_pow_left (natAbs_intOf_lt (of_decide_eq_true hx)) two_ne_zero).trans_eq (by rw [← pow_mul])

theorem sumSd_lt_mul (hl : ps.length ≤ n) (hn : 0 < n) : sumSd ps < n * 2 ^ 556 :=
  sum_map_filter_lt_mul hl hn fun _ hp =>
    have ⟨ho, hc⟩ := of_decide_eq_true hp
    (Nat.pow_lt_pow_left (natAbs_intOf_sub_lt ho hc) two_ne_zero).trans_eq (by rw [← pow_mul])

/-- `VARQ`'s numerator is at most `N × S2` (R148). -/
theorem natAbs_varNum_lt_mul (hl : xs.length ≤ n) (hn : 0 < n) :
    ((sideOf xs).varNum n).natAbs < n * n * 2 ^ 554 := by
  have hnonneg := varNum_nonneg hl
  have hs2 : ((n * sumS2 xs : ℕ) : ℤ) < ((n * (n * 2 ^ 554) : ℕ) : ℤ) :=
    Nat.cast_lt.mpr (Nat.mul_lt_mul_of_pos_left (sumS2_lt_mul hl hn) hn)
  have hle : (sideOf xs).varNum n ≤ ((n * sumS2 xs : ℕ) : ℤ) := by
    rw [Nat.cast_mul]
    exact sub_le_self _ (mul_self_nonneg _)
  rw [mul_assoc, ← Nat.cast_lt (α := ℤ), Int.natAbs_of_nonneg hnonneg]
  exact hle.trans_lt hs2

end Bounds

/-- What a job hands to a rounding function: a numerator below `k × 2^b` over the denominator `k × 2^a`, where `k` is
the job's length or its square, below `2^c` (R144, R148). -/
structure JobRatio (num : ℤ) (k a b c : ℕ) : Prop where
  pos : 0 < k
  lt_two_pow : k < 2 ^ c
  num_lt : num.natAbs < k * 2 ^ b

namespace JobRatio
variable {num : ℤ} {k a b c : ℕ}

theorem den_pos (h : JobRatio num k a b c) : 0 < k * 2 ^ a := Nat.mul_pos h.pos (by positivity)

/-- The denominator is below any power of two that has room for it, times a numerator that is not 0. -/
theorem den_le (h : JobRatio num k a b c) (hn : num ≠ 0) {m : ℕ} (hm : c + a ≤ m) : k * 2 ^ a ≤ num.natAbs * 2 ^ m :=
  calc k * 2 ^ a ≤ 2 ^ c * 2 ^ a := Nat.mul_le_mul_right _ h.lt_two_pow.le
    _ = 2 ^ (c + a) := (pow_add _ _ _).symm
    _ ≤ 2 ^ m := Nat.pow_le_pow_right two_pos hm
    _ ≤ num.natAbs * 2 ^ m := Nat.le_mul_of_pos_left _ (Int.natAbs_pos.mpr hn)

theorem num_lt_den (h : JobRatio num k a b c) {m : ℕ} (hm : b ≤ a + m) : num.natAbs < k * 2 ^ a * 2 ^ m :=
  calc num.natAbs < k * 2 ^ b := h.num_lt
    _ ≤ k * 2 ^ (a + m) := Nat.mul_le_mul_left _ (Nat.pow_le_pow_right two_pos hm)
    _ = k * 2 ^ a * 2 ^ m := by rw [pow_add, mul_assoc]

theorem inRange64 (h : JobRatio num k a b c) (hlow : c + a ≤ 1022) (hup : b ≤ a + 1023) :
    num = 0 ∨ InRange64 num (k * 2 ^ a) :=
  or_iff_not_imp_left.mpr fun hn => ⟨h.den_le hn hlow, h.num_lt_den hup⟩

theorem inRangeSqrt64 (h : JobRatio num k a b c) (hnum : 0 ≤ num) (hlow : c + a ≤ 2044) (hup : b ≤ a + 2046) :
    num = 0 ∨ InRangeSqrt64 num (k * 2 ^ a) :=
  or_iff_not_imp_left.mpr fun hn => ⟨lt_of_le_of_ne hnum (Ne.symm hn), h.den_le hn hlow, h.num_lt_den hup⟩

/-- A ratio that is not 0 is inside the bounds that R148's table is made of. -/
theorem bounds (h : JobRatio num k a b c) (hn : num ≠ 0) :
    2 ^ (-(c + a : ℤ)) < |(num : ℚ) / ((k * 2 ^ a : ℕ) : ℚ)| ∧
      |(num : ℚ) / ((k * 2 ^ a : ℕ) : ℚ)| < 2 ^ (b - a : ℤ) := by
  have hk : (0 : ℚ) < k := Nat.cast_pos.mpr h.pos
  have hkc : (k : ℚ) < 2 ^ c := by exact_mod_cast h.lt_two_pow
  have hone : (1 : ℚ) ≤ num.natAbs := by exact_mod_cast Int.natAbs_pos.mpr hn
  have hnum : (num.natAbs : ℚ) < k * 2 ^ b := by exact_mod_cast h.num_lt
  have habs : |(num : ℚ) / ((k * 2 ^ a : ℕ) : ℚ)| = num.natAbs / (k * 2 ^ a) := by
    rw [abs_div, Nat.abs_cast, ← Int.cast_abs, Nat.cast_natAbs]
    push_cast
    rfl
  rw [habs, zpow_neg, ← Nat.cast_add, zpow_natCast, pow_add, zpow_sub₀ two_ne_zero, zpow_natCast, zpow_natCast]
  constructor
  · rw [lt_div_iff₀ (by positivity), inv_mul_lt_iff₀ (by positivity)]
    calc (k : ℚ) * 2 ^ a < 2 ^ c * 2 ^ a := by gcongr
      _ ≤ 2 ^ c * 2 ^ a * num.natAbs := le_mul_of_one_le_right (by positivity) hone
  · rw [div_lt_div_iff₀ (by positivity) (by positivity)]
    calc (num.natAbs : ℚ) * 2 ^ a < k * 2 ^ b * 2 ^ a := by gcongr
      _ = 2 ^ b * (k * 2 ^ a) := by ring

end JobRatio

/-! The four ratios of a job (R144). -/

section Ratios
variable {xs : List Word} {ps : List (Word × Word)} {n : ℕ}

theorem mse_jobRatio (hl : ps.length ≤ n) (hn : 0 < n) (hn' : n < 2 ^ 32) :
    JobRatio (sumSd ps : ℤ) n 298 556 32 :=
  ⟨hn, hn', by rw [Int.natAbs_natCast]; exact sumSd_lt_mul hl hn⟩

theorem mean_jobRatio (hl : xs.length ≤ n) (hn : 0 < n) (hn' : n < 2 ^ 32) : JobRatio (sumS1 xs) n 149 277 32 :=
  ⟨hn, hn', natAbs_sumS1_lt_mul hl hn⟩

theorem var_jobRatio (hl : xs.length ≤ n) (hn : 0 < n) (hn' : n < 2 ^ 32) :
    JobRatio ((sideOf xs).varNum n) (n * n) 298 554 64 :=
  ⟨Nat.mul_pos hn hn, (Nat.mul_lt_mul'' hn' hn').trans_eq (by rw [← pow_add]), natAbs_varNum_lt_mul hl hn⟩

end Ratios

end Sys2Proof.Machine
end

section
/-! SUPPORT. The results of a job as correct roundings of its exact quantities, their signs and their ranges
(spec/41_fidelity_metrics.md R144, R147, R148). -/

namespace Sys2Proof.Machine

namespace JobRatio
variable {num : ℤ} {k a b c : ℕ}

/-- What is rounded is 0, with result +0, or inside the bounds, with a normal pattern as result (R148). -/
theorem rn64_cases (h : JobRatio num k a b c) (hlow : c + a ≤ 1022) (hup : b ≤ a + 1023) :
    ((num : ℚ) / ((k * 2 ^ a : ℕ) : ℚ) = 0 ∧ rn64 num (k * 2 ^ a) = zero64) ∨
      (2 ^ (-(c + a : ℤ)) < |(num : ℚ) / ((k * 2 ^ a : ℕ) : ℚ)| ∧
        |(num : ℚ) / ((k * 2 ^ a : ℕ) : ℚ)| < 2 ^ (b - a : ℤ) ∧ IsNormal64 (rn64 num (k * 2 ^ a))) := by
  by_cases hn : num = 0
  · exact .inl ⟨by rw [hn, Int.cast_zero, zero_div], by rw [hn, rn64_zero]⟩
  · obtain ⟨hmin, hmax⟩ := h.bounds hn
    exact .inr ⟨hmin, hmax, isNormal64_rn64 h.den_pos hn ((h.inRange64 hlow hup).resolve_left hn)⟩

end JobRatio

/-! The three results of a side, in a job of length `n` (R144). -/

section Side
variable {xs : List Word} {n : ℕ}

/-- A variance is `QNAN64`, or one rounding of `VARQ`. -/
theorem Side.var_cases (d : Side) (n : ℕ) :
    d.var n = qnan64 ∨ (n ≠ 0 ∧ d.NoFlag ∧ d.var n = rn64 (d.varNum n) (varDen n)) := by
  unfold Side.var
  split_ifs with hn hflag
  · exact .inl rfl
  · exact .inl rfl
  · simp only [not_or, Bool.not_eq_true] at hflag
    exact .inr ⟨hn, hflag, rfl⟩

/-- A standard deviation is `QNAN64`, or one rounding of the root of `VARQ`. -/
theorem Side.std_cases (d : Side) (n : ℕ) :
    d.std n = qnan64 ∨ (n ≠ 0 ∧ d.NoFlag ∧ d.std n = rn64Sqrt (d.varNum n) (varDen n)) := by
  unfold Side.std
  split_ifs with hn hflag
  · exact .inl rfl
  · exact .inl rfl
  · simp only [not_or, Bool.not_eq_true] at hflag
    exact .inr ⟨hn, hflag, rfl⟩

theorem sign64_qnan64 : sign64 qnan64 = false := by decide

theorem sign64_pinf64 : sign64 pinf64 = false := by decide

/-- A variance has no sign (R149 item 4). -/
theorem sign64_var (hl : xs.length ≤ n) (hn' : n < 2 ^ 32) : sign64 ((sideOf xs).var n) = false := by
  obtain h | ⟨hn, -, h⟩ := (sideOf xs).var_cases n <;> rw [h]
  · exact sign64_qnan64
  · have hratio := var_jobRatio hl (Nat.pos_of_ne_zero hn) hn'
    exact sign64_rn64 hratio.den_pos (varNum_nonneg hl) (hratio.inRange64 (by decide) (by decide))

/-- A standard deviation has no sign (R149 item 4). -/
theorem sign64_std (hl : xs.length ≤ n) (hn' : n < 2 ^ 32) : sign64 ((sideOf xs).std n) = false := by
  obtain h | ⟨hn, -, h⟩ := (sideOf xs).std_cases n <;> rw [h]
  · exact sign64_qnan64
  · have hratio := var_jobRatio hl (Nat.pos_of_ne_zero hn) hn'
    exact sign64_rn64Sqrt hratio.den_pos (hratio.inRangeSqrt64 (varNum_nonneg hl) (by decide) (by decide))

end Side

section AllFinite
variable {xs : List Word} (hfin : AllFinite xs) (hpos : 0 < xs.length) (hlt : xs.length < 2 ^ 32)
include hfin hpos

theorem mean_of_allFinite : (sideOf xs).mean xs.length = rn64 (sumS1 xs) (xs.length * 2 ^ 149) :=
  Side.mean_of_noFlag hpos.ne' ((sideOf_noFlag_iff xs).mpr hfin)

theorem var_of_allFinite :
    (sideOf xs).var xs.length = rn64 ((sideOf xs).varNum xs.length) (varDen xs.length) :=
  Side.var_of_noFlag hpos.ne' ((sideOf_noFlag_iff xs).mpr hfin)

theorem std_of_allFinite :
    (sideOf xs).std xs.length = rn64Sqrt ((sideOf xs).varNum xs.length) (varDen xs.length) :=
  Side.std_of_noFlag hpos.ne' ((sideOf_noFlag_iff xs).mpr hfin)

theorem varianceOf_nonneg : 0 ≤ varianceOf (xs.map valOf) := by
  rw [varianceOf_eq hfin hpos.ne']
  exact div_nonneg (Int.cast_nonneg (varNum_nonneg le_rfl)) (Nat.cast_nonneg _)

include hlt

/-- MREAD.MEAN answers the exact mean rounded once (R147). -/
theorem roundsTo_mean : RoundsTo ((sideOf xs).mean xs.length) (meanOf (xs.map valOf) : ℚ) := by
  have hratio := mean_jobRatio le_rfl hpos hlt
  rw [mean_of_allFinite hfin hpos, meanOf_eq hfin, Rat.cast_div, Rat.cast_intCast, Rat.cast_natCast]
  exact roundsTo_rn64 hratio.den_pos (hratio.inRange64 (by decide) (by decide))

/-- MREAD.VAR answers the exact variance rounded once (R147). -/
theorem roundsTo_var : RoundsTo ((sideOf xs).var xs.length) (varianceOf (xs.map valOf) : ℚ) := by
  have hratio := var_jobRatio (xs := xs) le_rfl hpos hlt
  rw [var_of_allFinite hfin hpos, varianceOf_eq hfin hpos.ne', Rat.cast_div, Rat.cast_intCast, Rat.cast_natCast]
  exact roundsTo_rn64 hratio.den_pos (hratio.inRange64 (by decide) (by decide))

/-- MREAD.STD answers the root of the exact variance rounded once (R147). -/
theorem roundsTo_std : RoundsTo ((sideOf xs).std xs.length) (Real.sqrt (varianceOf (xs.map valOf) : ℚ)) := by
  have hratio := var_jobRatio (xs := xs) le_rfl hpos hlt
  rw [std_of_allFinite hfin hpos, varianceOf_eq hfin hpos.ne', Rat.cast_div, Rat.cast_intCast, Rat.cast_natCast]
  exact roundsTo_rn64Sqrt hratio.den_pos (hratio.inRangeSqrt64 (varNum_nonneg le_rfl) (by decide) (by decide))

/-- The row "mean" of R148's table. -/
theorem mean_range : (meanOf (xs.map valOf) = 0 ∧ (sideOf xs).mean xs.length = zero64) ∨
    (2 ^ (-181 : ℤ) < |meanOf (xs.map valOf)| ∧ |meanOf (xs.map valOf)| < 2 ^ 128 ∧
      IsNormal64 ((sideOf xs).mean xs.length)) := by
  rw [mean_of_allFinite hfin hpos, meanOf_eq hfin]
  exact (mean_jobRatio le_rfl hpos hlt).rn64_cases (by decide) (by decide)

/-- A variance that is not 0 is inside its bounds (R148). -/
theorem varianceOf_bounds (hnum : (sideOf xs).varNum xs.length ≠ 0) :
    2 ^ (-362 : ℤ) < varianceOf (xs.map valOf) ∧ varianceOf (xs.map valOf) < 2 ^ 256 := by
  have habs := abs_of_nonneg (varianceOf_nonneg hfin hpos)
  have hbounds := (var_jobRatio (xs := xs) le_rfl hpos hlt).bounds hnum
  rw [varianceOf_eq hfin hpos.ne', varDen] at habs
  rw [habs] at hbounds
  rw [varianceOf_eq hfin hpos.ne']
  exact hbounds

/-- The row "variance" of R148's table. -/
theorem var_range : (varianceOf (xs.map valOf) = 0 ∧ (sideOf xs).var xs.length = zero64) ∨
    (2 ^ (-362 : ℤ) < varianceOf (xs.map valOf) ∧ varianceOf (xs.map valOf) < 2 ^ 256 ∧
      IsNormal64 ((sideOf xs).var xs.length)) := by
  have hratio := var_jobRatio (xs := xs) le_rfl hpos hlt
  rw [var_of_allFinite hfin hpos]
  by_cases hnum : (sideOf xs).varNum xs.length = 0
  · exact .inl ⟨by rw [varianceOf_eq hfin hpos.ne', hnum, Int.cast_zero, zero_div], by rw [hnum, rn64_zero]⟩
  · obtain ⟨hmin, hmax⟩ := varianceOf_bounds hfin hpos hlt hnum
    exact .inr ⟨hmin, hmax,
      isNormal64_rn64 hratio.den_pos hnum ((hratio.inRange64 (by decide) (by decide)).resolve_left hnum)⟩

/-- The row "standard deviation" of R148's table. -/
theorem std_range : (Real.sqrt (varianceOf (xs.map valOf) : ℚ) = 0 ∧ (sideOf xs).std xs.length = zero64) ∨
    (2 ^ (-181 : ℤ) < Real.sqrt (varianceOf (xs.map valOf) : ℚ) ∧
      Real.sqrt (varianceOf (xs.map valOf) : ℚ) < 2 ^ 128 ∧ IsNormal64 ((sideOf xs).std xs.length)) := by
  have hratio := var_jobRatio (xs := xs) le_rfl hpos hlt
  rw [std_of_allFinite hfin hpos]
  by_cases hnum : (sideOf xs).varNum xs.length = 0
  · refine .inl ⟨?_, by rw [hnum, rn64Sqrt_zero]⟩
    rw [varianceOf_eq hfin hpos.ne', hnum, Int.cast_zero, zero_div, Rat.cast_zero, Real.sqrt_zero]
  · obtain ⟨hmin, hmax⟩ := varianceOf_bounds hfin hpos hlt hnum
    have hmin' := (Rat.cast_lt (K := ℝ)).mpr hmin
    have hmax' := (Rat.cast_lt (K := ℝ)).mpr hmax
    rw [Rat.cast_zpow, Rat.cast_ofNat] at hmin'
    rw [Rat.cast_pow, Rat.cast_ofNat] at hmax'
    refine .inr ⟨?_, ?_, isNormal64_rn64Sqrt hratio.den_pos
      ((hratio.inRangeSqrt64 (varNum_nonneg le_rfl) (by decide) (by decide)).resolve_left hnum)⟩
    · rw [Real.lt_sqrt (by positivity), two_zpow_sq]
      exact hmin'
    · rw [Real.sqrt_lt' (by positivity), ← pow_mul]
      exact hmax'

end AllFinite

/-! The MSE of a job (R144). -/

section Job
variable {len : Word} {ps : List (Word × Word)}

theorem UnitM.mse_cases (m : UnitM) : m.mse = qnan64 ∨ m.mse = pinf64 ∨
    (m.n ≠ 0 ∧ m.mse = rn64 m.sd (m.n * 2 ^ 298)) := by
  unfold UnitM.mse
  split_ifs with hn
  · exact .inl rfl
  · exact .inl rfl
  · exact .inr (.inl rfl)
  · exact .inr (.inr ⟨hn, rfl⟩)

/-- The MSE has no sign (R149 item 4). -/
theorem sign64_mse (hl : ps.length ≤ len.toNat) : sign64 (jobOf len ps).mse = false := by
  obtain h | h | ⟨hn, h⟩ := (jobOf len ps).mse_cases <;> rw [h]
  · exact sign64_qnan64
  · exact sign64_pinf64
  · have hratio := mse_jobRatio hl (Nat.pos_of_ne_zero hn) len.isLt
    exact sign64_rn64 hratio.den_pos (Int.natCast_nonneg _) (hratio.inRange64 (by decide) (by decide))

theorem mse_of_allFinite (hlen : len ≠ 0) (hfin : ∀ p ∈ ps, IsFinite p.1 ∧ IsFinite p.2) :
    (jobOf len ps).mse = rn64 (sumSd ps) (len.toNat * 2 ^ 298) := by
  obtain ⟨hnan, hinf⟩ := (jobOf_dFlags_clear_iff len).mpr hfin
  exact UnitM.mse_of_noFlag (UnitM.n_ne_zero_iff.mpr hlen) hnan hinf

theorem toNat_pos_of_ne_zero (hlen : len ≠ 0) : 0 < len.toNat :=
  Nat.pos_of_ne_zero fun h => hlen (BitVec.eq_of_toNat_eq h)

theorem mseOf_nonneg (hfin : ∀ p ∈ ps, IsFinite p.1 ∧ IsFinite p.2) : 0 ≤ mseOf ps := by
  rw [mseOf_eq hfin]
  exact div_nonneg (Int.cast_nonneg (Int.natCast_nonneg _)) (Nat.cast_nonneg _)

variable (hlen : len ≠ 0) (hl : ps.length = len.toNat) (hfin : ∀ p ∈ ps, IsFinite p.1 ∧ IsFinite p.2)
include hlen hl hfin

/-- MREAD.MSE answers the exact mean squared error rounded once (R147). -/
theorem roundsTo_mse : RoundsTo (jobOf len ps).mse (mseOf ps : ℚ) := by
  have hratio := mse_jobRatio hl.le (toNat_pos_of_ne_zero hlen) len.isLt
  rw [mse_of_allFinite hlen hfin, mseOf_eq hfin, hl, Rat.cast_div, Rat.cast_intCast, Rat.cast_natCast]
  exact roundsTo_rn64 hratio.den_pos (hratio.inRange64 (by decide) (by decide))

/-- The row "MSE" of R148's table. -/
theorem mse_range : (mseOf ps = 0 ∧ (jobOf len ps).mse = zero64) ∨
    (2 ^ (-330 : ℤ) < mseOf ps ∧ mseOf ps < 2 ^ 258 ∧ IsNormal64 (jobOf len ps).mse) := by
  have habs := abs_of_nonneg (mseOf_nonneg hfin)
  have hcases := (mse_jobRatio hl.le (toNat_pos_of_ne_zero hlen) len.isLt).rn64_cases (by decide) (by decide)
  rw [mseOf_eq hfin, hl] at habs
  rw [habs] at hcases
  rw [mse_of_allFinite hlen hfin, mseOf_eq hfin, hl]
  exact hcases

end Job

end Sys2Proof.Machine
end

section
/-! SUPPORT. Particular buffers: the mean between two elements, a constant buffer, a buffer against a word-by-word image
of itself, and masks of two lengths (spec/41_fidelity_metrics.md R149). -/

namespace Sys2Proof.Machine

/-! The mean lies between two elements (R149 item 4). -/

/-- As many times its mean is the sum of a list. -/
theorem sum_map_const_meanOf {α : Type} {l : List α} (hl : l ≠ []) (f : α → ℚ) :
    (l.map fun _ => meanOf (l.map f)).sum = (l.map f).sum := by
  have hlen : (l.length : ℚ) ≠ 0 := Nat.cast_ne_zero.mpr (List.length_pos_of_ne_nil hl).ne'
  rw [List.map_const', List.sum_replicate, nsmul_eq_mul, meanOf, List.length_map, mul_div_cancel₀ _ hlen]

/-- Some element is at most the mean, and some at least. -/
theorem exists_le_meanOf_le {α : Type} {l : List α} (hl : l ≠ []) (f : α → ℚ) :
    ∃ a ∈ l, ∃ b ∈ l, f a ≤ meanOf (l.map f) ∧ meanOf (l.map f) ≤ f b := by
  have hsum := sum_map_const_meanOf hl f
  obtain ⟨a, ha, hle⟩ := List.exists_le_of_sum_le hl f (fun _ => meanOf (l.map f)) hsum.ge
  obtain ⟨b, hb, hge⟩ := List.exists_le_of_sum_le hl (fun _ => meanOf (l.map f)) f hsum.le
  exact ⟨a, ha, b, hb, hle, hge⟩

/-- Rounding keeps the mean between two elements, as binary64 holds them exactly. -/
theorem exists_valOf_le_mean_le {xs : List Word} (hfin : AllFinite xs) (hpos : 0 < xs.length)
    (hlt : xs.length < 2 ^ 32) : ∃ a ∈ xs, ∃ b ∈ xs, valOf a ≤ val64 ((sideOf xs).mean xs.length) ∧
      val64 ((sideOf xs).mean xs.length) ≤ valOf b := by
  obtain ⟨a, ha, b, hb, hle, hge⟩ := exists_le_meanOf_le (List.ne_nil_of_length_pos hpos) valOf
  obtain ⟨p, hp, hpa⟩ := exists_val64_eq_valOf (hfin a ha)
  obtain ⟨q, hq, hqb⟩ := exists_val64_eq_valOf (hfin b hb)
  have hround := roundsTo_mean hfin hpos hlt
  rw [← hpa] at hle
  rw [← hqb] at hge
  refine ⟨a, ha, b, hb, ?_, ?_⟩
  · rw [← hpa]
    exact hround.le_val64 hp (Rat.cast_le.mpr hle)
  · rw [← hqb]
    exact hround.val64_le hq (Rat.cast_le.mpr hge)

/-! A constant buffer (R149 item 3). -/

section Constant
variable {w : Word} (n : ℕ)

theorem allFinite_replicate (hw : IsFinite w) : AllFinite (List.replicate n w) :=
  fun _ hx => List.eq_of_mem_replicate hx ▸ hw

/-- The deviations of a constant buffer are all 0: `N × N m^2 = (N m)^2`. -/
theorem varNum_replicate (hw : IsFinite w) : (sideOf (List.replicate n w)).varNum n = 0 := by
  have hfin := allFinite_replicate n hw
  have hs1 : (sideOf (List.replicate n w)).s1 = n * intOf w := by
    show sumS1 (List.replicate n w) = _
    rw [sumS1_of_allFinite hfin, List.map_replicate, List.sum_replicate, nsmul_eq_mul]
  have hs2 : (sideOf (List.replicate n w)).s2 = n * (intOf w).natAbs ^ 2 := by
    show sumS2 (List.replicate n w) = _
    rw [sumS2_of_allFinite hfin, List.map_replicate, List.sum_replicate, smul_eq_mul]
  rw [Side.varNum, hs1, hs2, Nat.cast_mul, Nat.cast_pow, Int.natAbs_sq]
  ring

theorem meanOf_replicate {n : ℕ} (hn : 0 < n) (q : ℚ) : meanOf (List.replicate n q) = q := by
  rw [meanOf, List.sum_replicate, List.length_replicate, nsmul_eq_mul,
    mul_div_cancel_left₀ _ (Nat.cast_ne_zero.mpr hn.ne')]

end Constant

/-! A buffer against an image of itself (R149 items 1, 2 and 5). -/

section Image
variable {len : Word} {xs : List Word} (f : Word → Word)

theorem zip_map_eq_map : xs.zip (xs.map f) = xs.map fun x => (x, f x) := by
  simpa using List.zip_map' (f := id) (g := f) (l := xs)

theorem pairs_isFinite (hfin : AllFinite xs) (hf : ∀ x, IsFinite x → IsFinite (f x)) :
    ∀ p ∈ xs.map fun x => (x, f x), IsFinite p.1 ∧ IsFinite p.2 := by
  rw [List.forall_mem_map]
  exact fun x hx => ⟨hfin x hx, hf x (hfin x hx)⟩

theorem sumSd_map (hfin : AllFinite xs) (hf : ∀ x, IsFinite x → IsFinite (f x)) :
    sumSd (xs.map fun x => (x, f x)) = (xs.map fun x => (intOf x - intOf (f x)).natAbs ^ 2).sum := by
  rw [sumSd_of_allFinite (pairs_isFinite f hfin hf), List.map_map]
  rfl

/-- A buffer differs from itself nowhere. -/
theorem sumSd_self (hfin : AllFinite xs) : sumSd (xs.map fun x => (x, x)) = 0 := by
  refine (sumSd_map id hfin fun _ h => h).trans ?_
  simp

/-- A word that is not finite makes a NaN of the pair it makes with itself (R141, 90_conflicts.md C2). -/
theorem pairIsNan_self {x : Word} (h : ¬ IsFinite x) : PairIsNan x x := by
  rcases (not_isFinite_iff x).mp h with hnan | hinf
  · exact .inl hnan
  · exact .inr (.inr ⟨rfl, hinf⟩)

end Image

/-! Masks of two lengths (R149 item 2). -/

section Masks
variable {j k : BitVec 5}

/-- A longer mask leaves no larger a magnitude. -/
theorem magOf_mask_anti (w : Word) (h : j.toNat ≤ k.toNat) : magOf (w &&& maskOf k) ≤ magOf (w &&& maskOf j) := by
  rw [← maskOf_and_maskOf (j := j) (k := k) (max_eq_right h).symm, ← BitVec.and_assoc]
  exact magOf_mask_le _ k

/-- Masking moves a word by what its magnitude loses. -/
theorem natAbs_intOf_sub_mask (w : Word) (k : BitVec 5) :
    (intOf w - intOf (w &&& maskOf k)).natAbs = magOf w - magOf (w &&& maskOf k) := by
  have hle := magOf_mask_le w k
  rw [intOf, intOf, signOf_mask]
  split <;> omega

/-- The sum of the squared differences grows with the mask. -/
theorem sumSd_mask_le {xs : List Word} (hfin : AllFinite xs) (h : j.toNat ≤ k.toNat) :
    sumSd (xs.map fun x => (x, x &&& maskOf j)) ≤ sumSd (xs.map fun x => (x, x &&& maskOf k)) := by
  rw [sumSd_map (· &&& maskOf j) hfin fun _ => isFinite_mask, sumSd_map (· &&& maskOf k) hfin fun _ => isFinite_mask]
  refine List.sum_le_sum fun x _ => Nat.pow_le_pow_left ?_ 2
  rw [natAbs_intOf_sub_mask, natAbs_intOf_sub_mask]
  exact Nat.sub_le_sub_left (magOf_mask_anti x h) _

end Masks

/-- No larger a sum of squared differences, no larger an MSE. -/
theorem val64_mse_le {len : Word} {ps qs : List (Word × Word)} (hlen : len ≠ 0)
    (hps : ∀ p ∈ ps, IsFinite p.1 ∧ IsFinite p.2) (hqs : ∀ q ∈ qs, IsFinite q.1 ∧ IsFinite q.2)
    (hpl : ps.length = len.toNat) (hql : qs.length = len.toNat) (h : sumSd ps ≤ sumSd qs) :
    val64 (jobOf len ps).mse ≤ val64 (jobOf len qs).mse := by
  rcases h.eq_or_lt with heq | hlt
  · rw [mse_of_allFinite hlen hps, mse_of_allFinite hlen hqs, heq]
  · refine (roundsTo_mse hlen hpl hps).val64_mono (roundsTo_mse hlen hql hqs) (Rat.cast_lt.mpr ?_)
    have hden : (0 : ℚ) < ((len.toNat * 2 ^ 298 : ℕ) : ℚ) :=
      Nat.cast_pos.mpr (Nat.mul_pos (toNat_pos_of_ne_zero hlen) (by positivity))
    rw [mseOf_eq hps, mseOf_eq hqs, hpl, hql]
    exact div_lt_div_of_pos_right (by exact_mod_cast hlt) hden

end Sys2Proof.Machine
end

section
/-! SUPPORT. What the host gets for a command of unit M, and for METRICS (spec/30_encoding.md R80;
spec/41_fidelity_metrics.md R150). -/

namespace Sys2Proof.Machine

/-- What the host gets for a command of unit M is what the unit's function says. -/
theorem ask_of_unitM {s : State} {i : Instr} {m : UnitM} {r : Response} (hw : i.wellFormed = true)
    (hi : ofUnitC i = false) (hrun : UnitM.run i s.m = (m, r)) :
    s.ask i = some ({ s with pending := [] }.answerM (m, r), r) :=
  ask_of_answers hw ((answers_iff_of_unitM hi).mpr ⟨congrArg _ hrun.symm, (congrArg Prod.snd hrun).symm⟩)

theorem wellFormed_of_mem_allReads : ∀ i ∈ allReads, i.wellFormed = true := by decide

/-- In a job with room for the pairs, the pushes all answer OK, and the host goes on in the job that
holds them (R141). -/
theorem call_pushes_then {len : Word} {rest : List Instr} (qs : List (Word × Word)) :
    ∀ (ps : List (Word × Word)) (s : State), s.m = jobOf len ps → ps.length + qs.length ≤ len.toNat →
      ∃ u : State, u.m = jobOf len (ps ++ qs) ∧ u.c = s.c ∧
        ∀ t out, u.call rest = some (t, .ok out) →
          s.call (qs.map (fun p => .mpush p.1 p.2) ++ rest) = some (t, .ok (List.replicate qs.length 0 ++ out)) := by
  induction qs with
  | nil =>
    intro ps s hs _
    exact ⟨s, by rw [hs, List.append_nil], rfl, fun t out h => h⟩
  | cons q qs ih =>
    intro ps s hs hroom
    rw [List.length_cons] at hroom
    have htakes : s.m.TakesPair := by
      rw [hs]
      exact jobOf_takesPair (by omega)
    have hrun : UnitM.run (.mpush q.1 q.2) s.m = (s.m.push q.1 q.2, ⟨.ok, 0⟩) := if_pos htakes
    have hjob : s.m.push q.1 q.2 = jobOf len (ps ++ [q]) := by rw [hs, ← jobOf_append_singleton]
    obtain ⟨u, hm, hc, hcall⟩ := ih (ps ++ [q]) ({ s with pending := [] }.answerM (s.m.push q.1 q.2, ⟨.ok, 0⟩)) hjob
      (by rw [List.length_append, List.length_singleton]; omega)
    refine ⟨u, by rw [hm, List.append_assoc, List.singleton_append], hc, fun t out h => ?_⟩
    exact call_cons_of_ok (ask_of_unitM rfl rfl hrun) (hcall t out h)

/-- In a complete job, reads and the MEND all answer OK, each read its result (R142, R143). -/
theorem call_reads (reads : List Instr) : ∀ s : State, (∀ i ∈ reads, i ∈ allReads) → s.m.Complete →
    ∃ t, t.c = s.c ∧ t.m.state = .idle ∧
      s.call (reads ++ [.mend]) = some (t, .ok (reads.map s.payloadOf ++ [0])) := by
  induction reads with
  | nil =>
    intro s _ _
    have hmend : UnitM.run .mend s.m = (s.m.closed, ⟨.ok, 0⟩) := rfl
    refine ⟨_, ?_, ?_, call_cons_of_ok (ask_of_unitM rfl rfl hmend) (call_nil _)⟩
    · rfl
    · rfl
  | cons i reads ih =>
    intro s hreads hcomplete
    obtain ⟨hi, hrest⟩ := List.forall_mem_cons.mp hreads
    have hask : s.ask i = some ({ s with pending := [] }.respond .ok (s.payloadOf i), ⟨.ok, s.payloadOf i⟩) :=
      ask_of_answers (wellFormed_of_mem_allReads i hi)
        ⟨exec_mread_of_complete (s := { s with pending := [] }) hi hcomplete, rfl⟩
    obtain ⟨t, hc, hm, hcall⟩ := ih ({ s with pending := [] }.respond .ok (s.payloadOf i)) hrest hcomplete
    refine ⟨t, hc, hm, ?_⟩
    exact call_cons_of_ok hask hcall

/-- The report that the answers to METRICS make: MSTART's, the pushes' and MEND's payloads are left out (R80, R83). -/
theorem report_of_payloads (n : ℕ) (s : State) :
    FidelityReport.ofPayloads
      (((0 :: (List.replicate n 0 ++ (allReads.map s.payloadOf ++ [0]))).drop (1 + n)).take 7) =
    some { mse := s.m.mse, mean := (s.m.o.mean s.m.n, s.m.c.mean s.m.n),
           variance := (s.m.o.var s.m.n, s.m.c.var s.m.n), stdDev := (s.m.o.std s.m.n, s.m.c.std s.m.n) } := by
  rw [Nat.add_comm, List.drop_succ_cons, List.drop_left' (List.length_replicate ..)]
  rfl

/-- METRICS of buffers that fit and differ in length: MSTART's LENGTH_MISMATCH (R150). -/
theorem metrics_of_length_ne {original compressed : List Word}
    (hfit : original.length < 2 ^ 32 ∧ compressed.length < 2 ^ 32) (hne : original.length ≠ compressed.length)
    (s : State) : ∃ t, t.c = s.c ∧ t.m.state = .idle ∧
      s.metrics original compressed = some (t, .error .lengthMismatch) := by
  have hwords : BitVec.ofNat 32 original.length ≠ BitVec.ofNat 32 compressed.length := by
    intro h
    have hnat := congrArg BitVec.toNat h
    rw [BitVec.toNat_ofNat, BitVec.toNat_ofNat, Nat.mod_eq_of_lt hfit.1, Nat.mod_eq_of_lt hfit.2] at hnat
    exact hne hnat
  have hrun : UnitM.run (.mstart (BitVec.ofNat 32 original.length) (BitVec.ofNat 32 compressed.length)) s.m =
      (s.m.closed, ⟨.error .lengthMismatch, 0⟩) := UnitM.start_of_ne hwords s.m
  refine ⟨{ s with pending := [] }.answerM (s.m.closed, ⟨.error .lengthMismatch, 0⟩), rfl, rfl, ?_⟩
  rw [State.metrics, if_pos ((lengthsFit_iff _ _).mpr hfit), metricsCommands,
    call_cons_of_error (ask_of_unitM rfl rfl hrun)]
  rfl

/-- METRICS of buffers that fit and have one length: the seven results of the job of their pairs (R150). -/
theorem metrics_of_length_eq {original compressed : List Word} (hfit : original.length < 2 ^ 32)
    (heq : original.length = compressed.length) (s : State) {m : UnitM}
    (hm : m = jobOf (BitVec.ofNat 32 original.length) (original.zip compressed)) :
    ∃ t, t.c = s.c ∧ t.m.state = .idle ∧ s.metrics original compressed = some (t, .ok (some
      { mse := m.mse, mean := (m.o.mean m.n, m.c.mean m.n), variance := (m.o.var m.n, m.c.var m.n),
        stdDev := (m.o.std m.n, m.c.std m.n) })) := by
  have hzip : (original.zip compressed).length = original.length := by rw [List.length_zip, ← heq, min_self]
  have hlen : (BitVec.ofNat 32 original.length).toNat = original.length := by
    rw [BitVec.toNat_ofNat, Nat.mod_eq_of_lt hfit]
  have hrun : UnitM.run (.mstart (BitVec.ofNat 32 original.length) (BitVec.ofNat 32 compressed.length)) s.m =
      (UnitM.opened (BitVec.ofNat 32 original.length), ⟨.ok, 0⟩) := if_pos (congrArg _ heq)
  obtain ⟨u, hum, huc, hpushes⟩ := call_pushes_then (rest := allReads ++ [.mend]) (original.zip compressed) []
    ({ s with pending := [] }.answerM (UnitM.opened (BitVec.ofNat 32 original.length), ⟨.ok, 0⟩)) (jobOf_nil _).symm
    (by rw [hlen, List.length_nil, hzip, Nat.zero_add])
  rw [List.nil_append, ← hm] at hum
  have hcomplete : u.m.Complete := by
    rw [hum, hm]
    exact ⟨rfl, congrArg (BitVec.ofNat 32) hzip⟩
  obtain ⟨t, htc, htm, hreads⟩ := call_reads allReads u (fun _ hi => hi) hcomplete
  refine ⟨t, htc.trans huc, htm, ?_⟩
  rw [State.metrics, if_pos ((lengthsFit_iff _ _).mpr ⟨hfit, heq ▸ hfit⟩), metricsCommands, List.append_assoc,
    call_cons_of_ok (ask_of_unitM rfl rfl hrun) (hpushes t _ hreads), ← hum, ← report_of_payloads]
  rfl

end Sys2Proof.Machine
end

section
/-! PROOFS. The family of spec/41_fidelity_metrics.md, the fidelity report: the obligations O29 to O40, O42, O22,
O23 and O25 to O28. -/

namespace Sys2Proof.Machine

/-- Settles O29: the ratio of the accumulators is the exact MSE, inside the range `RN64` rounds correctly on. -/
theorem mseIsTheExactMeanRoundedOnce : Obligations.MseIsTheExactMeanRoundedOnce :=
  fun _ _ hlen hl ho hc => roundsTo_mse hlen hl (allFinite_pairs_iff.mp ⟨ho, hc⟩)

/-- A result that rounds an exact number of every all-finite buffer rounds that of each all-finite side of a job. -/
theorem sides_roundsTo {result : Side → ℕ → Double} {exact : List ℚ → ℝ}
    (h : ∀ xs : List Word, AllFinite xs → 0 < xs.length → xs.length < 2 ^ 32 →
      RoundsTo (result (sideOf xs) xs.length) (exact (xs.map valOf)))
    (len : Word) (ps : List (Word × Word)) (hlen : len ≠ 0) (hl : ps.length = len.toNat) :
    (AllFinite (ps.map (·.1)) →
      RoundsTo (result (jobOf len ps).o (jobOf len ps).n) (exact (ps.map fun p => valOf p.1))) ∧
    (AllFinite (ps.map (·.2)) →
      RoundsTo (result (jobOf len ps).c (jobOf len ps).n) (exact (ps.map fun p => valOf p.2))) := by
  have side : ∀ f : Word × Word → Word, AllFinite (ps.map f) →
      RoundsTo (result (sideOf (ps.map f)) len.toNat) (exact (ps.map fun p => valOf (f p))) := by
    intro f hfin
    have hround := h (ps.map f) hfin
    rw [List.length_map, hl, List.map_map] at hround
    exact hround (toNat_pos_of_ne_zero hlen) len.isLt
  exact ⟨side Prod.fst, side Prod.snd⟩

/-- Settles O30: `S1_X` over the denominator is the exact mean of either side. -/
theorem meanIsTheExactMeanRoundedOnce : Obligations.MeanIsTheExactMeanRoundedOnce :=
  sides_roundsTo (result := Side.mean) (exact := fun l => (meanOf l : ℚ)) fun _ => roundsTo_mean

/-- Settles O31: `VARQ` is the exact two-pass variance of either side. -/
theorem varianceIsExactRoundedOnce : Obligations.VarianceIsExactRoundedOnce :=
  sides_roundsTo (result := Side.var) (exact := fun l => (varianceOf l : ℚ)) fun _ => roundsTo_var

/-- Settles O32: the root of `VARQ`, exact until its one rounding, of either side. -/
theorem stdDevIsExactRootRoundedOnce : Obligations.StdDevIsExactRootRoundedOnce :=
  sides_roundsTo (result := Side.std) (exact := fun l => Real.sqrt (varianceOf l : ℚ)) fun _ => roundsTo_std

/-- Settles O33: the rows of R148's table. -/
theorem roundingArgumentsInRange : Obligations.RoundingArgumentsInRange := by
  intro len ps hlen hl ho hc
  refine ⟨mse_range hlen hl (allFinite_pairs_iff.mp ⟨ho, hc⟩), fun xs d hside => ?_⟩
  have hfin : AllFinite xs := by
    rcases hside with ⟨rfl, -⟩ | ⟨rfl, -⟩
    · exact ho
    · exact hc
  obtain ⟨rfl, hxs⟩ := side_of_job hside
  rw [← hxs.trans hl]
  have hpos : 0 < xs.length := by
    rw [hxs.trans hl]
    exact toNat_pos_of_ne_zero hlen
  have hlt : xs.length < 2 ^ 32 := by
    rw [hxs.trans hl]
    exact len.isLt
  exact ⟨mean_range hfin hpos hlt, var_range hfin hpos hlt, std_range hfin hpos hlt⟩

/-- Settles O34, by the Cauchy-Schwarz inequality over the finite words. -/
theorem varianceNumeratorIsNonnegative : Obligations.VarianceNumeratorIsNonnegative := fun _ _ => varNum_nonneg

/-- Settles O35: the flags a job's words set, and the result each flag gives. -/
theorem nonFiniteWordsPropagate : Obligations.NonFiniteWordsPropagate := by
  intro len ps hlen _
  have hn : (jobOf len ps).n ≠ 0 := UnitM.n_ne_zero_iff.mpr hlen
  refine ⟨fun hnan => ?_, fun hnone hinf => ?_, fun xs d hside => ?_⟩
  · exact UnitM.mse_of_dNan hn ((jobOf_dNan_iff len ps).mpr hnan)
  · obtain ⟨p, hp, hpinf⟩ := hinf
    exact UnitM.mse_of_dInf hn (jobOf_dNan_eq_false len hnone)
      ((jobOf_dInf_iff len ps).mpr ⟨p, hp, hnone p hp, hpinf⟩)
  · obtain ⟨rfl, -⟩ := side_of_job hside
    have hfalse : ∀ {b : Bool} {P : Prop}, (b = true ↔ P) → ¬ P → b = false := fun hb hP =>
      Bool.eq_false_iff.mpr (mt hb.mp hP)
    refine ⟨fun h => ?_, fun hnan hpinf hninf => ?_, fun hnan hninf hpinf => ?_, fun h => ?_⟩
    · rw [← sideOf_nan_iff, ← sideOf_pinf_iff, ← sideOf_ninf_iff] at h
      exact Side.mean_of_nan hn h
    · exact Side.mean_of_pinf hn (hfalse (sideOf_nan_iff xs) (by simpa using hnan)) ((sideOf_pinf_iff xs).mpr hpinf)
        (hfalse (sideOf_ninf_iff xs) hninf)
    · exact Side.mean_of_ninf hn (hfalse (sideOf_nan_iff xs) (by simpa using hnan))
        (hfalse (sideOf_pinf_iff xs) hpinf) ((sideOf_ninf_iff xs).mpr hninf)
    · have hflag := (sideOf_flag_iff xs).mpr h
      exact ⟨Side.var_of_flag hn hflag, Side.std_of_flag hn hflag⟩

/-- Settles O36: any two pairs commute, so any permutation gives the same state. -/
theorem pairOrderDoesNotMatter : Obligations.PairOrderDoesNotMatter := by
  intro m ps qs hperm
  exact hperm.foldl_eq' (fun p _ q _ m => m.push_push_comm p q) m

/-- Settles O37: finite words make differences 0, and any other word a NaN of its pair. -/
theorem mseOfABufferAgainstItself : Obligations.MseOfABufferAgainstItself := by
  intro len xs hl
  have hzip : xs.zip xs = xs.map fun x => (x, x) := by simpa using zip_map_eq_map (xs := xs) id
  rw [hzip]
  refine ⟨fun hlen hfin => ?_, fun h => ?_, ?_⟩
  · have hpairs : ∀ p ∈ xs.map fun x => (x, x), IsFinite p.1 ∧ IsFinite p.2 :=
      pairs_isFinite id hfin fun _ hx => hx
    rw [mse_of_allFinite hlen hpairs, sumSd_self hfin, Nat.cast_zero, rn64_zero]
  · rcases Decidable.em (len = 0) with rfl | hlen
    · exact UnitM.mse_of_empty rfl
    · obtain ⟨x, hx, hnot⟩ : ∃ x ∈ xs, ¬ IsFinite x := by simpa [AllFinite] using h.resolve_left hlen
      exact UnitM.mse_of_dNan (UnitM.n_ne_zero_iff.mpr hlen)
        ((jobOf_dNan_iff len _).mpr ⟨(x, x), List.mem_map.mpr ⟨x, hx, rfl⟩, pairIsNan_self hnot⟩)
  · show sideOf _ = sideOf _
    rw [List.map_map, List.map_map]
    rfl

/-- Settles O38: the sum of squared differences grows with the mask, rounding keeps the order, and so do the patterns
of numbers without sign. -/
theorem mseGrowsWithBitsToZero : Obligations.MseGrowsWithBitsToZero := by
  intro len xs j k hlen hl hfin hjk
  have pairs : ∀ i : BitVec 5, xs.zip (xs.map (· &&& maskOf i)) = xs.map fun x => (x, x &&& maskOf i) :=
    fun i => zip_map_eq_map _
  have finite : ∀ i : BitVec 5, ∀ p ∈ xs.map fun x => (x, x &&& maskOf i), IsFinite p.1 ∧ IsFinite p.2 :=
    fun i => pairs_isFinite (· &&& maskOf i) hfin fun _ => isFinite_mask
  have length : ∀ i : BitVec 5, (xs.map fun x => (x, x &&& maskOf i)).length = len.toNat :=
    fun i => (List.length_map _).trans hl
  have pattern : ∀ i : BitVec 5, let r := (jobOf len (xs.map fun x => (x, x &&& maskOf i))).mse
      (IsZero64 r ∨ IsNormal64 r) ∧ sign64 r = false :=
    fun i => ⟨(roundsTo_mse hlen (length i) (finite i)).1, sign64_mse (length i).le⟩
  have hval := val64_mse_le hlen (finite j) (finite k) (length j) (length k) (sumSd_mask_le hfin hjk.le)
  rw [pairs, pairs]
  exact ⟨toNat_le_of_val64_le (pattern j).1 (pattern k).1 (pattern j).2 (pattern k).2 hval, hval⟩

/-- Settles O39: the numerator of the variance is 0, and the mean is a number binary64 holds. -/
theorem constantBufferHasNoSpread : Obligations.ConstantBufferHasNoSpread := by
  intro w n hn hn'
  refine ⟨fun hw => ?_, fun hw => ?_⟩
  · have hfin := allFinite_replicate n hw
    have hflags := (sideOf_noFlag_iff _).mpr hfin
    have hround := roundsTo_mean hfin
    rw [List.length_replicate, List.map_replicate, meanOf_replicate hn] at hround
    refine ⟨?_, ?_, (hround hn hn').val64_eq_valOf hw⟩
    · rw [Side.var_of_noFlag hn.ne' hflags, varNum_replicate n hw, rn64_zero]
    · rw [Side.std_of_noFlag hn.ne' hflags, varNum_replicate n hw, rn64Sqrt_zero]
  · have hflag := (sideOf_flag_iff _).mpr ⟨w, List.mem_replicate.mpr ⟨hn.ne', rfl⟩, hw⟩
    exact ⟨Side.var_of_flag hn.ne' hflag, Side.std_of_flag hn.ne' hflag⟩

/-- Settles O40: what is rounded is not negative, and rounding keeps the mean between two elements. -/
theorem resultSignsAndMeanBounds : Obligations.ResultSignsAndMeanBounds := by
  intro len ps hl
  refine ⟨sign64_mse hl.le, fun xs d hside => ?_⟩
  obtain ⟨rfl, hxs⟩ := side_of_job hside
  have hlen : xs.length = (jobOf len ps).n := hxs.trans hl
  have hlt : (jobOf len ps).n < 2 ^ 32 := len.isLt
  refine ⟨sign64_var hlen.le hlt, sign64_std hlen.le hlt, fun hne hfin => ?_⟩
  have hpos : 0 < (jobOf len ps).n := toNat_pos_of_ne_zero hne
  rw [← hlen] at hpos hlt ⊢
  exact exists_valOf_le_mean_le hfin hpos hlt

/-- Settles O42, by cases on the two lengths. -/
theorem metricsReportsTheJobOfThePairs : Obligations.MetricsReportsTheJobOfThePairs := by
  refine ⟨fun s original compressed hfit => ?_, fun s original compressed ho hc => ?_⟩
  · rw [State.metrics, if_neg (mt (lengthsFit_iff _ _).mp hfit)]
  · by_cases heq : original.length = compressed.length
    · obtain ⟨t, htc, htm, ht⟩ := metrics_of_length_eq ho heq s rfl
      exact ⟨t, htc, htm, fun hne => absurd heq hne, fun _ _ hm => hm ▸ ht⟩
    · obtain ⟨t, htc, htm, ht⟩ := metrics_of_length_ne ⟨ho, hc⟩ heq s
      exact ⟨t, htc, htm, fun _ => ht, fun h => absurd h heq⟩

/-- Settles O22: MSTART is `UnitM.start`, which opens the job with every element written or closes the job. -/
theorem mstartOpensOrRejects : Obligations.MstartOpensOrRejects := by
  refine fun a b s => ⟨decode_opMstart a b, fun hab => ?_, fun hab => ?_⟩
  · exact if_pos hab
  · exact if_neg hab

/-- Settles O23: MPUSH is `UnitM.push` where the job takes the pair, element by element. -/
theorem mpushAccumulatesOrRefuses : Obligations.MpushAccumulatesOrRefuses := by
  refine fun o c s => ⟨decode_opMpush o c, fun htakes => ?_, fun hrefused => ?_⟩
  · have hpush : exec (.mpush o c) s = .next ({ s with m := s.m.push o c }.respond .ok 0) := if_pos htakes
    exact ⟨_, hpush, (UnitM.push_state s.m o c).trans htakes.1, UnitM.push_len s.m o c, rfl,
      Side.push_s1_ite s.m.o o, Side.push_s2_int s.m.o o, Side.push_nan s.m.o o, Side.push_pinf s.m.o o,
      Side.push_ninf s.m.o o, Side.push_s1_ite s.m.c c, Side.push_s2_int s.m.c c, Side.push_nan s.m.c c,
      Side.push_pinf s.m.c c, Side.push_ninf s.m.c c, UnitM.push_sd_int s.m o c, UnitM.push_dNan s.m o c,
      UnitM.push_dInf s.m o c, rfl, rfl, rfl, rfl⟩
  · exact if_neg ((UnitM.not_takesPair_iff s.m).mpr hrefused)

/-- Settles O25: MEND answers OK and closes the job, and a closed job is closed by nothing. -/
theorem mendClosesTheJob : Obligations.MendClosesTheJob := by
  refine ⟨decode_encode (i := .mend) rfl, fun s => ⟨rfl, fun hs => ?_⟩⟩
  have hkeep : s.m.closed = s.m := by rw [UnitM.closed, ← hs]
  rw [exec_of_unitM rfl]
  show Host.Outcome.next (s.answerM (s.m.closed, ⟨.ok, 0⟩)) = _
  rw [hkeep]
  rfl

/-- Settles O26: the seven words by evaluation; each form reads its result or is refused as the job is complete or
not. -/
theorem mreadAnswersItsResult : Obligations.MreadAnswersItsResult := by
  refine ⟨by decide, fun s => ⟨fun hcomplete => ?_, fun hrefused i hi => ?_⟩⟩
  · have read : ∀ i ∈ allReads, exec i s = .next (s.respond .ok (s.payloadOf i)) :=
      fun i hi => exec_mread_of_complete hi hcomplete
    exact ⟨read _ (by decide), read _ (by decide), read _ (by decide), read _ (by decide), read _ (by decide),
      read _ (by decide), read _ (by decide)⟩
  · exact exec_mread_of_not_complete hi ((UnitM.not_complete_iff s.m).mpr hrefused)

/-- Settles O27: the cases of the result functions. -/
theorem resultFunctionsOfAJob : Obligations.ResultFunctionsOfAJob := by
  intro m d n hlen hn
  have hm : m.n ≠ 0 := UnitM.n_ne_zero_iff.mpr hlen
  exact ⟨UnitM.mse_of_dNan hm, UnitM.mse_of_dInf hm, UnitM.mse_of_noFlag hm, Side.mean_of_nan hn, Side.mean_of_pinf hn,
    Side.mean_of_ninf hn, fun h1 h2 h3 => Side.mean_of_noFlag hn ⟨h1, h2, h3⟩,
    fun h => ⟨Side.var_of_flag hn h, Side.std_of_flag hn h⟩,
    fun h1 h2 h3 => ⟨Side.var_of_noFlag hn ⟨h1, h2, h3⟩, Side.std_of_noFlag hn ⟨h1, h2, h3⟩⟩⟩

/-- Settles O28: a job of length 0 is complete at once, and every result of it is `QNAN64`. -/
theorem emptyJobAnswersQuietNan : Obligations.EmptyJobAnswersQuietNan := by
  intro s hactive hlen hcount i hi
  have hn : s.m.n = 0 := by rw [UnitM.n, hlen]; rfl
  rw [exec_mread_of_complete hi ⟨hactive, hcount.trans hlen.symm⟩, payloadOf_of_empty hi hn]
  rfl

end Sys2Proof.Machine
end

section
/-! SUPPORT. The classes of a word by its fields, and the order of the magnitudes (spec/42_numerics.md R170 to R172). -/

namespace Sys2Proof.Machine

/-! The classes by the fields (R171). -/

section Classes
variable {w : Word}

theorem isNormal_iff : IsNormal w ↔ expoOf w ≠ 0 ∧ expoOf w ≠ 255 := by
  have hlt : (expoOf w).toNat < 2 ^ 8 := (expoOf w).isLt
  rw [ne_eq, ne_eq, ← BitVec.toNat_inj, ← BitVec.toNat_inj]
  change _ ↔ (expoOf w).toNat ≠ 0 ∧ (expoOf w).toNat ≠ 255
  unfold IsNormal
  omega

theorem eq_iff_fields {a b : Word} :
    a = b ↔ signOf a = signOf b ∧ expoOf a = expoOf b ∧ mantOf a = mantOf b :=
  ⟨fun h => h ▸ ⟨rfl, rfl, rfl⟩, fun ⟨hs, he, hf⟩ => eq_of_fields hs he hf⟩

theorem eq_pinf32_iff : w = pinf32 ↔ signOf w = false ∧ expoOf w = 255 ∧ mantOf w = 0 := by
  obtain ⟨hs, he, hf⟩ := pinf32_fields
  rw [eq_iff_fields, hs, he, hf]

theorem eq_ninf32_iff : w = ninf32 ↔ signOf w = true ∧ expoOf w = 255 ∧ mantOf w = 0 := by
  obtain ⟨hs, he, hf⟩ := ninf32_fields
  rw [eq_iff_fields, hs, he, hf]

end Classes

/-! The order of the magnitudes (R172). -/

section Magnitude
variable {a b w : Word}

/-- Bits 30:0 are the exponent field above the mantissa field (R170). -/
theorem toNat_magnitudeBits (w : Word) :
    (w.extractLsb' 0 31).toNat = (expoOf w).toNat * 2 ^ 23 + (mantOf w).toNat := by
  rw [expoOf, mantOf, BitVec.extractLsb'_toNat, BitVec.extractLsb'_toNat, BitVec.extractLsb'_toNat,
    Nat.shiftRight_zero, Nat.shiftRight_eq_div_pow]
  omega

/-- With an exponent field other than 0, the significand has its leading bit. -/
theorem le_magOf (he : expoOf w ≠ 0) : 2 ^ 23 * 2 ^ ((expoOf w).toNat - 1) ≤ magOf w := by
  rw [magOf, if_neg he]
  exact Nat.mul_le_mul_right _ (Nat.le_add_right _ _)

/-- A word with a smaller exponent field is below the leading bit of the other. -/
theorem magOf_lt_of_expoOf_lt (h : (expoOf a).toNat < (expoOf b).toNat) : magOf a < magOf b := by
  have hb : expoOf b ≠ 0 := fun h0 => by simp [h0] at h
  by_cases ha : expoOf a = 0
  · calc magOf a = (mantOf a).toNat := if_pos ha
      _ < 2 ^ 23 := (mantOf a).isLt
      _ ≤ 2 ^ 23 * 2 ^ ((expoOf b).toNat - 1) := Nat.le_mul_of_pos_right _ (Nat.two_pow_pos _)
      _ ≤ magOf b := le_magOf hb
  · have ha0 : (expoOf a).toNat ≠ 0 := fun h0 => ha (BitVec.eq_of_toNat_eq h0)
    calc magOf a < 2 ^ 24 * 2 ^ ((expoOf a).toNat - 1) := magOf_lt a
      _ = 2 ^ 23 * 2 ^ ((expoOf a).toNat - 1 + 1) := by ring
      _ ≤ 2 ^ 23 * 2 ^ ((expoOf b).toNat - 1) :=
        Nat.mul_le_mul_left _ (Nat.pow_le_pow_right (by decide) (by omega))
      _ ≤ magOf b := le_magOf hb

/-- Under one exponent field the mantissa decides. -/
theorem magOf_lt_of_mantOf_lt (he : expoOf a = expoOf b) (hf : (mantOf a).toNat < (mantOf b).toNat) :
    magOf a < magOf b := by
  rw [magOf_eq, magOf_eq, he]
  exact Nat.mul_lt_mul_of_pos_right (Nat.add_lt_add_left hf _) (Nat.two_pow_pos _)

/-- The magnitudes are ordered as bits 30:0 are (R172). -/
theorem magnitudeBits_le_iff (a b : Word) :
    (a.extractLsb' 0 31).toNat ≤ (b.extractLsb' 0 31).toNat ↔ magOf a ≤ magOf b := by
  have hfa : (mantOf a).toNat < 2 ^ 23 := (mantOf a).isLt
  have hfb : (mantOf b).toNat < 2 ^ 23 := (mantOf b).isLt
  rw [toNat_magnitudeBits, toNat_magnitudeBits]
  rcases lt_trichotomy (expoOf a).toNat (expoOf b).toNat with he | he | he
  · exact iff_of_true (by omega) (magOf_lt_of_expoOf_lt he).le
  · rw [he, Nat.add_le_add_iff_left]
    exact ⟨magOf_le_magOf he.le, fun hle => not_lt.mp fun hlt =>
      (magOf_lt_of_mantOf_lt (BitVec.eq_of_toNat_eq he.symm) hlt).not_ge hle⟩
  · exact iff_of_false (by omega) (magOf_lt_of_expoOf_lt he).not_ge

theorem intOf_of_isZero (h : IsZero w) : intOf w = 0 := by
  obtain ⟨he, hf⟩ := h
  rw [← Int.natAbs_eq_zero, natAbs_intOf, magOf, if_pos he, hf]
  rfl

end Magnitude

end Sys2Proof.Machine
end

section
/-! PROOFS. The family of spec/42_numerics.md: the obligations O43, O44, O46, O45 and O47. -/

namespace Sys2Proof.Machine

/-- Settles O43: the rounded significand is the nearest, and packing it keeps it so. -/
theorem rn64IsNearestTiesToEven : Obligations.Rn64IsNearestTiesToEven := fun _ _ => roundsTo_rn64

/-- Settles O44: as O43, with the significand of the real root. -/
theorem rn64SqrtIsNearestTiesToEven : Obligations.Rn64SqrtIsNearestTiesToEven := fun _ _ => roundsTo_rn64Sqrt

/-- Settles O46: the bounds from the widths of the fields, the order from the exponent field first, then the
mantissa. -/
theorem magnitudeOrderAndBounds : Obligations.MagnitudeOrderAndBounds := by
  refine ⟨fun w hw => ?_, fun a b _ _ => magnitudeBits_le_iff a b⟩
  have hle : magOf w ≤ (2 ^ 24 - 1) * 2 ^ 253 := magOf_le hw
  refine ⟨hle, ?_, intOf_of_isZero, abs_valOf_lt w⟩
  calc magOf w ≤ (2 ^ 24 - 1) * 2 ^ 253 := hle
    _ < 2 ^ 24 * 2 ^ 253 := Nat.mul_lt_mul_of_pos_right (by decide) (Nat.two_pow_pos _)
    _ = 2 ^ 277 := by rw [← pow_add]

/-- Settles O45: closed patterns, each by evaluation of its rounding function. -/
theorem roundingWorkedExamples : Obligations.RoundingWorkedExamples := by
  unfold Obligations.RoundingWorkedExamples
  decide +kernel

/-- Settles O47: the class is decided by the exponent field, then by the mantissa, and for an infinity by the sign. -/
theorem wordClassesArePartition : Obligations.WordClassesArePartition := by
  intro w
  have hpinf : w = 0x7F800000 ↔ signOf w = false ∧ expoOf w = 255 ∧ mantOf w = 0 := eq_pinf32_iff
  have hninf : w = 0xFF800000 ↔ signOf w = true ∧ expoOf w = 255 ∧ mantOf w = 0 := eq_ninf32_iff
  simp only [isNormal_iff, hpinf, hninf, IsFinite, IsZero, IsSubnormal, IsNan]
  by_cases hzero : expoOf w = 0#8
  · by_cases hf : mantOf w = 0#23
    · simp [hzero, hf] -- zero
    · simp [hzero, hf] -- subnormal
  · by_cases htop : expoOf w = 255#8
    · by_cases hf : mantOf w = 0#23
      · cases signOf w <;> simp [htop, hf] -- the two infinities
      · simp [htop, hf] -- NaN
    · simp [hzero, htop] -- normal

end Sys2Proof.Machine
end

section
/-! PROOFS. The family of spec/60_exceptions.md: a command or word that is answered an error is `State.raise`, and the
obligations O55 and O56. -/

namespace Sys2Proof.Machine

/-- A command that is not accepted raises its one error, and does nothing else (R77, R209). -/
theorem exec_of_not_accepts {s : State} {i : Instr} (h : ¬ s.Accepts i) :
    exec i s = .next (s.raise (errorOf i)) := by
  cases i with
  | cstart k | cpush w | mstart a b | mpush o c => exact if_neg h
  | cend | mend => exact absurd trivial h
  | mreadMse | mreadMeanO | mreadMeanC | mreadVarO | mreadVarC | mreadStdO | mreadStdC =>
    exact congrArg Host.Outcome.next (if_neg h)

section Error
variable {s t : State} {w : CmdWord} {rest : List HostEvent} {r : Response} {e : ErrorCode}

/-- A command answered an error has raised it. -/
theorem raise_of_answers_error {i : Instr} (h : Answers s i t r) (he : r.status = .error e) : t = s.raise e := by
  obtain ⟨hnot, rfl⟩ := (status_eq_error_iff h e).mp he
  obtain ⟨hexec, -⟩ := h
  exact Host.Outcome.next.inj (hexec.symm.trans (exec_of_not_accepts hnot))

/-- A step answered an error takes the presented word and raises the error, whether the word is legal or not. -/
theorem raise_of_step_error (hp : s.pending = .present w :: rest) (hs : step s = .next t)
    (hr : t.responses = s.responses ++ [r]) (he : r.status = .error e) :
    t = { s with pending := rest }.raise e := by
  cases hd : decode w with
  | ok i => exact raise_of_answers_error (i := i) ⟨(step_of_present_ok hp hd).symm.trans hs, hr⟩ he
  | error d =>
    obtain rfl := Host.Outcome.next.inj ((step_of_present_error hp hd).symm.trans hs)
    obtain rfl : ⟨.error .illegalCommand, 0⟩ = r := by simpa using hr
    obtain rfl : ErrorCode.illegalCommand = e := Status.error.inj he
    rfl

end Error

/-! The obligations. -/

/-- Settles O55: the step is `State.raise`, whose writes are the rows of R209's table. -/
theorem errorsWriteOnlyTheirTable : Obligations.ErrorsWriteOnlyTheirTable := by
  intro s t w rest r e hp hs hr he
  obtain rfl := raise_of_step_error hp hs hr he
  obtain rfl : ⟨.error e, 0⟩ = r := by simpa using hr
  refine ⟨rfl, State.raise_pending _ e, State.raise_freeIndex _ e, ?_⟩
  cases e with
  | invalidParameter | lengthMismatch | protocol | illegalCommand => exact ⟨rfl, rfl⟩

/-- Settles O56, from the table of O55: its row for INVALID_PARAMETER is a closed unit C, its row for LENGTH_MISMATCH a
closed unit M, and the other two write neither unit. -/
theorem errorsLeaveNoTrace : Obligations.ErrorsLeaveNoTrace := by
  intro s t w rest r hp hs hr
  have table := fun e => errorsWriteOnlyTheirTable s t w rest r e hp hs hr
  refine ⟨fun he => ?_, fun he => ?_, ?_⟩
  · obtain ⟨-, -, -, hc, hm⟩ := table _ he
    exact ⟨_, exec_of_unitC rfl s, hc, hm⟩
  · obtain ⟨-, -, -, hc, hm⟩ := table _ he
    exact ⟨_, exec_of_unitM rfl s, hc, hm⟩
  · rintro (he | he)
    · obtain ⟨-, -, -, unchanged⟩ := table _ he
      exact unchanged
    · obtain ⟨-, -, -, unchanged⟩ := table _ he
      exact unchanged

end Sys2Proof.Machine
end

section
/-! PROOFS. The family of spec/70_reset_and_hazards.md: what one event of the host adds to the responses, what a run
through all of them adds, and the obligations O57 and O9. -/

namespace Sys2Proof.Machine

/-- A presented word is owed a response, an asserted reset none (R230, R233). -/
def HostEvent.isPresent : HostEvent → Bool
  | .present _ => true
  | .assertReset _ => false

/-- A step takes the host's next event, and adds the one response it is owed or none (R62, R230). -/
theorem step_takes_event {s : State} {ev : HostEvent} {rest : List HostEvent} (hp : s.pending = ev :: rest) :
    ∃ t rs, step s = .next t ∧ t.pending = rest ∧ t.responses = s.responses ++ rs ∧
      rs.length = [ev].countP HostEvent.isPresent := by
  cases ev with
  | present w =>
    obtain ⟨t, r, hs, hr, ht, -⟩ := step_answers_of_present hp
    exact ⟨t, [r], hs, ht, hr, rfl⟩
  | assertReset f => exact ⟨_, [], step_of_assertReset hp, rfl, (List.append_nil _).symm, rfl⟩

/-- As many steps as events are pending take them all, and add one response for each presented word. -/
theorem run_takes_events : ∀ (evs : List HostEvent) {s : State}, s.pending = evs →
    ∃ t rs, Sys2Proof.core.run evs.length s = .next t ∧ t.pending = [] ∧ t.responses = s.responses ++ rs ∧
      rs.length = evs.countP HostEvent.isPresent := by
  intro evs
  induction evs with
  | nil => exact fun {s} hp => ⟨s, [], rfl, hp, (List.append_nil _).symm, rfl⟩
  | cons ev rest ih =>
    intro s hp
    obtain ⟨s₁, first, hstep, hp₁, hr₁, hfirst⟩ := step_takes_event hp
    obtain ⟨t, later, hrun, ht, hr, hlater⟩ := ih hp₁
    refine ⟨t, first ++ later, (run_succ_of_step (M := Sys2Proof.core) hstep rest.length).trans hrun, ht, ?_, ?_⟩
    · rw [hr, hr₁, List.append_assoc]
    · rw [List.length_append, hfirst, hlater, ← List.countP_append, List.singleton_append]

/-! The obligations. -/

/-- Settles O57: the free values a reset leaves are of neither `C_ACTIVE` nor `M_STATE`, and it appends no response. -/
theorem resetLeavesNoJobOpen : Obligations.ResetLeavesNoJobOpen :=
  ⟨⟨rfl, rfl⟩, fun _ _ _ hp => ⟨_, step_of_assertReset hp, rfl, rfl, rfl, rfl⟩⟩

/-- Settles O9: by induction on the pending events, each taken by one step. -/
theorem runAnswersEveryCommand : Obligations.RunAnswersEveryCommand := by
  intro s
  obtain ⟨t, rs, hrun, hpending, hresponses, hlength⟩ := run_takes_events s.pending rfl
  refine ⟨t, hrun, hpending, ⟨rs, hresponses.symm⟩, ?_⟩
  rw [hresponses, List.length_append, hlength]
  rfl

end Sys2Proof.Machine
end
